-- ==== Sys2Proof/Word.lean ====
section
/-! DEFINITION. The one word of this hardware: a byte (spec/20_memory.md R40, R45: nothing wider is ever moved). -/

namespace Sys2Proof

/-- A byte: 8 bits, unsigned (spec/00_scope.md section 6.1). Its `+` and `-` are the arithmetic modulo 256 of
spec/10_state.md R27. -/
abbrev Byte := BitVec 8

end Sys2Proof
end

