-- ==== Sys2Proof/Config.lean ====
section
/-! DEFINITION. The parameters of the two cores (spec/00_scope.md R3, R4): plain data, fixed for one machine. Their
default values are in Sys2Proof/Machine/Params.lean. -/

namespace Sys2Proof

/-- `TM_FWD_OVERRUN` (R3, R100): what `>` does at the phantom position. -/
inductive FwdOverrun where
  | wrapZero
  | fault
  deriving DecidableEq, Repr

/-- The byte of each of the eight `TM` opcode symbols (spec/30_encoding.md R72, R74). -/
structure TmOpcodes where
  /-- `>` -/
  right : Byte
  /-- `<` -/
  left : Byte
  /-- `+` -/
  inc : Byte
  /-- `-` -/
  dec : Byte
  /-- `,` -/
  input : Byte
  /-- `.` -/
  output : Byte
  /-- `[` -/
  loopOpen : Byte
  /-- `]` -/
  loopClose : Byte
  deriving DecidableEq, Repr

/-- The byte of each of the ten `RM` opcode symbols (spec/30_encoding.md R73, R74). -/
structure RmOpcodes where
  /-- `<` -/
  load : Byte
  /-- `>` -/
  store : Byte
  /-- `*` -/
  point : Byte
  /-- `!` -/
  jump : Byte
  /-- the backslash -/
  switch : Byte
  /-- `+` -/
  add : Byte
  /-- `-` -/
  sub : Byte
  /-- `(` -/
  input : Byte
  /-- `)` -/
  output : Byte
  /-- `?` -/
  skipz : Byte
  deriving DecidableEq, Repr

/-- The opcode bytes of a `TM` map, in the order of R72's table. -/
def TmOpcodes.bytes (m : TmOpcodes) : List Byte :=
  [m.right, m.left, m.inc, m.dec, m.input, m.output, m.loopOpen, m.loopClose]

/-- The opcode bytes of an `RM` map, in the order of R73's table. -/
def RmOpcodes.bytes (m : RmOpcodes) : List Byte :=
  [m.load, m.store, m.point, m.jump, m.switch, m.add, m.sub, m.input, m.output, m.skipz]

/-- `OPCODE_MAP` (R74, decision D1): one table per core, since the two maps are separate (R75). -/
structure OpcodeMap where
  tm : TmOpcodes
  rm : RmOpcodes
  deriving DecidableEq, Repr

/-- The parameters of R3. -/
structure Config where
  /-- `TAPE_LEN` -/
  tapeLen : Nat
  /-- `TM_FWD_OVERRUN` -/
  fwdOverrun : FwdOverrun
  /-- `JS_DEPTH`; `none` is unbounded (decision D6). -/
  jsDepth : Option Nat
  /-- `OPCODE_MAP` -/
  opcodes : OpcodeMap
  deriving DecidableEq, Repr

end Sys2Proof
end

