-- ==== Sys2Proof/Syntax.lean ====
section
/-! DEFINITION. The instructions of both cores: one constructor per row of spec/opcode_table.json, in its order
(spec/30_encoding.md R72, R73). No instruction has an operand (R71); the two no-ops keep the byte they were, the
field `x` of their rows. -/

namespace Sys2Proof

/-- Which of the two independent cores (spec/00_scope.md R1, R2). -/
inductive CoreId where
  | tm
  | rm
  deriving DecidableEq, Repr

/-- The instructions of `TM` (R72) and of `RM` (R73). -/
inductive Instr where
  | tmRight
  | tmLeft
  | tmInc
  | tmDec
  | tmIn
  | tmOut
  | tmOpen
  | tmClose
  | tmNop (x : Byte)
  | rmLoad
  | rmStore
  | rmPoint
  | rmJump
  | rmSwitch
  | rmAdd
  | rmSub
  | rmInput
  | rmOutput
  | rmSkipz
  | rmNop (x : Byte)
  deriving DecidableEq, Repr

/-- The core an instruction belongs to (R75: the two maps are separate). -/
def Instr.core : Instr → CoreId
  | .tmRight => .tm
  | .tmLeft => .tm
  | .tmInc => .tm
  | .tmDec => .tm
  | .tmIn => .tm
  | .tmOut => .tm
  | .tmOpen => .tm
  | .tmClose => .tm
  | .tmNop _ => .tm
  | .rmLoad => .rm
  | .rmStore => .rm
  | .rmPoint => .rm
  | .rmJump => .rm
  | .rmSwitch => .rm
  | .rmAdd => .rm
  | .rmSub => .rm
  | .rmInput => .rm
  | .rmOutput => .rm
  | .rmSkipz => .rm
  | .rmNop _ => .rm

end Sys2Proof
end

