-- ==== Sys2Proof/WellFormed.lean ====
section
/-! DEFINITION. What a well-formed parameter set and a well-formed instruction are. -/

namespace Sys2Proof

/-- An opcode map is valid when no two opcodes of one core share a byte, so that decoding "by equality of the whole
byte with one of the opcode values" (spec/30_encoding.md R76) is unambiguous. -/
abbrev OpcodeMap.Valid (m : OpcodeMap) : Prop := m.tm.bytes.Nodup ∧ m.rm.bytes.Nodup

/-- A parameter set is valid: `TAPE_LEN` is at least 1 (spec/00_scope.md R3) and the opcode map is valid. -/
abbrev Config.Valid (c : Config) : Prop := 1 ≤ c.tapeLen ∧ c.opcodes.Valid

/-- The check on one instruction: the byte of a no-op is not an opcode byte of its core (spec/40_tm_execution_loop.md
R93, spec/44_rm_execution_loop.md R133). The other instructions have no field to check. -/
def Instr.wellFormed (m : OpcodeMap) : Instr → Bool
  | .tmRight => true
  | .tmLeft => true
  | .tmInc => true
  | .tmDec => true
  | .tmIn => true
  | .tmOut => true
  | .tmOpen => true
  | .tmClose => true
  | .tmNop x => !m.tm.bytes.contains x
  | .rmLoad => true
  | .rmStore => true
  | .rmPoint => true
  | .rmJump => true
  | .rmSwitch => true
  | .rmAdd => true
  | .rmSub => true
  | .rmInput => true
  | .rmOutput => true
  | .rmSkipz => true
  | .rmNop x => !m.rm.bytes.contains x

end Sys2Proof
end

