-- ==== Sys2Proof/Decode.lean ====
section
/-! DEFINITION. The decoders of the two cores, and the encoder (spec/30_encoding.md). -/

namespace Sys2Proof

/-- The ASCII codes of the eight `TM` symbols (R72, R74; decision D1, its GK1). UNVERIFIED, log
entry 2. -/
def TmOpcodes.ascii : TmOpcodes where
  right := 0x3E#8
  left := 0x3C#8
  inc := 0x2B#8
  dec := 0x2D#8
  input := 0x2C#8
  output := 0x2E#8
  loopOpen := 0x5B#8
  loopClose := 0x5D#8

/-- The ASCII codes of the ten `RM` symbols (R73, R74; decision D1, its GK1). UNVERIFIED, log
entry 2. -/
def RmOpcodes.ascii : RmOpcodes where
  load := 0x3C#8
  store := 0x3E#8
  point := 0x2A#8
  jump := 0x21#8
  switch := 0x5C#8
  add := 0x2B#8
  sub := 0x2D#8
  input := 0x28#8
  output := 0x29#8
  skipz := 0x3F#8

/-- The default `OPCODE_MAP` (R74). -/
def OpcodeMap.ascii : OpcodeMap where
  tm := TmOpcodes.ascii
  rm := RmOpcodes.ascii

/-- `TM` decoding: equality of the whole byte with one of the eight opcode values, anything else the no-op (R72, R76,
R77). Total on bytes. -/
def decodeTm (m : TmOpcodes) (b : Byte) : Instr :=
  if b = m.right then .tmRight
  else if b = m.left then .tmLeft
  else if b = m.inc then .tmInc
  else if b = m.dec then .tmDec
  else if b = m.input then .tmIn
  else if b = m.output then .tmOut
  else if b = m.loopOpen then .tmOpen
  else if b = m.loopClose then .tmClose
  else .tmNop b

/-- `RM` decoding: equality of the whole byte with one of the ten opcode values, anything else the no-op (R73, R76,
R77). Total on bytes. -/
def decodeRm (m : RmOpcodes) (b : Byte) : Instr :=
  if b = m.load then .rmLoad
  else if b = m.store then .rmStore
  else if b = m.point then .rmPoint
  else if b = m.jump then .rmJump
  else if b = m.switch then .rmSwitch
  else if b = m.add then .rmAdd
  else if b = m.sub then .rmSub
  else if b = m.input then .rmInput
  else if b = m.output then .rmOutput
  else if b = m.skipz then .rmSkipz
  else .rmNop b

/-- One byte as the named core reads it. -/
def decodeByte (c : CoreId) (m : OpcodeMap) (b : Byte) : Instr :=
  match c with
  | .tm => decodeTm m.tm b
  | .rm => decodeRm m.rm b

/-- Why a byte sequence gives no instruction. -/
inductive DecodeReject where
  /-- There is no byte to decode. Nothing else is rejected: there is no illegal encoding (R77). -/
  | noByte
  deriving DecidableEq, Repr

/-- Decoding a byte sequence: its first byte is the whole instruction (R70, R78); the rest is handed back. -/
def decode (c : CoreId) (m : OpcodeMap) : List Byte → Except DecodeReject (Instr × List Byte)
  | [] => .error .noByte
  | b :: rest => .ok (decodeByte c m b, rest)

/-- The byte of an instruction (R72, R73). -/
def encodeByte (m : OpcodeMap) : Instr → Byte
  | .tmRight => m.tm.right
  | .tmLeft => m.tm.left
  | .tmInc => m.tm.inc
  | .tmDec => m.tm.dec
  | .tmIn => m.tm.input
  | .tmOut => m.tm.output
  | .tmOpen => m.tm.loopOpen
  | .tmClose => m.tm.loopClose
  | .tmNop x => x
  | .rmLoad => m.rm.load
  | .rmStore => m.rm.store
  | .rmPoint => m.rm.point
  | .rmJump => m.rm.jump
  | .rmSwitch => m.rm.switch
  | .rmAdd => m.rm.add
  | .rmSub => m.rm.sub
  | .rmInput => m.rm.input
  | .rmOutput => m.rm.output
  | .rmSkipz => m.rm.skipz
  | .rmNop x => x

/-- The words of an instruction: one byte (R70). -/
def encode (m : OpcodeMap) (i : Instr) : List Byte := [encodeByte m i]

/-- The bytes of a table word of `n` whole bytes, the first byte the least significant (the table's numbering). -/
def tableBytes : Nat → Nat → List Byte
  | 0, _ => []
  | n + 1, w => BitVec.ofNat 8 w :: tableBytes n (w / 256)

/-- Which core reads a table word. A word of spec/opcode_table.json names no core and several rows of the two cores
share one (R75). DESIGN CHOICE, log entry 6: a byte that only `RM` knows as an opcode is read by `RM`, every other
byte by `TM`. -/
def tableCore (b : Byte) : CoreId :=
  if TmOpcodes.ascii.bytes.contains b then .tm
  else if RmOpcodes.ascii.bytes.contains b then .rm
  else .tm

/-- The instruction the decoder reads from a table word (under the default map; log entry 6). -/
def decodeTableWord (nbits w : Nat) : Option Instr :=
  match tableBytes (nbits / 8) w with
  | [] => none
  | b :: rest =>
    match decode (tableCore b) OpcodeMap.ascii (b :: rest) with
    | .ok (i, _) => some i
    | .error _ => none

end Sys2Proof
end

