-- ==== Sys2Proof/Machine/Params.lean ====
section
/-! DEFINITION. The default parameters (spec/00_scope.md R3, R4). -/

namespace Sys2Proof

/-- The default parameters of R3: 65536 cells, wrap at the phantom position, an unbounded jump stack, the ASCII map. -/
def Config.default : Config where
  tapeLen := 65536
  fwdOverrun := .wrapZero
  jsDepth := none
  opcodes := OpcodeMap.ascii

namespace Machine

/-- The halting value of `IR` (R4; spec/44_rm_execution_loop.md R130). -/
def haltIr : Byte := 255#8

/-- The number of `RM` memory cells (R4). -/
def memSize : Nat := 256

/-- What a cell of either memory that is not listed reads as. `TM`: the tape is zero at start (spec/10_state.md R13).
`RM`: every address not listed in an image holds 0x00 (spec/30_encoding.md R80). Log entry 8. -/
def unlistedByte : Byte := 0#8

end Machine
end Sys2Proof
end

