-- ==== Sys2Proof/Machine/State.lean ====
section
/-! DEFINITION. The state of the machine: the two cores, the environment at their two ports, the parameters, and
what happens next. Plain data throughout. -/

namespace Sys2Proof.Machine

/-- A byte memory: pairs of address and byte, addresses strictly rising, no entry equal to `unlistedByte`
(`Memory.wf`). -/
abbrev Memory := List Host.Cell

/-- The failure kinds of spec/60_exceptions.md R172. -/
inductive FailKind where
  /-- Code 1; reserved for the host, no step of the hardware raises it (R182). -/
  | typeShape
  /-- Code 2; `]` with the jump stack empty (R173). -/
  | stackUnderflow
  /-- Code 3; `,` answered `fail` (R174). -/
  | ioRead
  /-- Code 4; `.` answered `fail` (R174). -/
  | ioWrite
  /-- Code 5; a tape access at the phantom position (R178). -/
  | tapeIndex
  /-- Code 6; `>` at the phantom position, only when `TM_FWD_OVERRUN = fault` (R178). -/
  | cursorOverrun
  /-- Code 7; `[` on a full jump stack, only when `JS_DEPTH` is finite (R178). -/
  | jumpStackOverflow
  deriving DecidableEq, Repr

/-- `STATUS` (spec/10_state.md R31). -/
inductive Status where
  | running
  | done
  | failed (k : FailKind)
  deriving DecidableEq, Repr

/-- The `TM` core: the six items of spec/10_state.md R10. -/
structure Tm where
  /-- `Prog` (R12); `PROG_LEN` is its length. -/
  prog : List Byte
  /-- `POS`, the program counter (R11). -/
  pos : Nat
  /-- `Tape` (R13). -/
  tape : Memory
  /-- `CUR` (R14). -/
  cur : Nat
  /-- `JS` (R15), the top first. -/
  js : List Nat
  /-- `STATUS` (R31). -/
  status : Status
  deriving DecidableEq, Repr

/-- The `RM` core: the six items of spec/10_state.md R20. -/
structure Rm where
  /-- `Mem` (R25). -/
  mem : Memory
  /-- `DR` (R22). -/
  dr : Byte
  /-- `AR` (R23). -/
  ar : Byte
  /-- `IR`, the program counter (R21). -/
  ir : Byte
  /-- `SR` (R24). -/
  sr : Byte
  /-- `STATUS` (R31). -/
  status : Status
  deriving DecidableEq, Repr

/-- The answer to a read transaction (spec/20_memory.md R53). -/
inductive ReadAnswer where
  | ok (b : Byte)
  | fail
  deriving DecidableEq, Repr

/-- The answer to a write transaction (R54). -/
inductive WriteAnswer where
  | ok
  | fail
  deriving DecidableEq, Repr

/-- One transaction performed at a port: what was offered or received, and the answer. -/
inductive Transaction where
  | read (a : ReadAnswer)
  | write (b : Byte) (a : WriteAnswer)
  deriving DecidableEq, Repr

/-- The environment behind a core's byte-stream port (R52 to R58), as plain data: the answers it gives. DESIGN
CHOICE, log entry 3: a claim about every value of these fields is a claim about every environment. -/
structure Port where
  /-- The answers to the coming read transactions, the next one first. -/
  reads : List ReadAnswer
  /-- The answer to every read after those; `none`: the environment does not answer (R55). -/
  readsThen : Option ReadAnswer
  /-- The answers to the coming write transactions, the next one first. -/
  writes : List WriteAnswer
  /-- The answer to every write after those; `none`: the environment does not answer (R55). -/
  writesThen : Option WriteAnswer
  /-- Every transaction performed, oldest first (R55; decision D19). -/
  log : List Transaction
  deriving DecidableEq, Repr

/-- What happens at one step: a core makes a pass of its loop, or the host gives a start (spec/70_reset_and_hazards.md
R200, R205). -/
inductive Event where
  /-- One pass of the execution loop of a core. -/
  | pass (c : CoreId)
  /-- Start of `TM` (R201), with the program the host loaded just before it, or (`none`) with the one in `Prog`.
  DESIGN CHOICE, log entry 22: a start that comes while `TM` is running may bring a program too. -/
  | startTm (load : Option (List Byte))
  /-- Start of `RM` with an image of exactly 256 bytes (R202, R204). -/
  | startRm (image : Vector Byte 256)
  deriving DecidableEq, Repr

/-- The machine. -/
structure State where
  /-- The parameters (spec/00_scope.md R3); no step changes them. -/
  cfg : Config
  /-- The `TM` core. -/
  tm : Tm
  /-- The `RM` core. -/
  rm : Rm
  /-- The environment at the port of `TM`. -/
  tmPort : Port
  /-- The environment at the port of `RM`. -/
  rmPort : Port
  /-- What happens at the coming steps, the next one first (DESIGN CHOICE, log entry 5). -/
  sched : List Event
  /-- The core whose passes follow once `sched` is empty (DESIGN CHOICE, log entry 5). -/
  active : CoreId
  deriving DecidableEq, Repr

/-- Why a step stops with a fault. -/
inductive Fault where
  /-- Raised by `+` `-` `,` `.` `]` of `TM` in a state whose `CUR` is above `TAPE_LEN`, a value the register cannot
  hold (spec/10_state.md R14) and no run reaches. Safe: the spec gives the access no meaning there. Log entry 9. -/
  | cursorRange
  deriving DecidableEq, Repr

/-- Why a step has no meaning. -/
inductive Refusal where
  /-- An instruction not modelled yet, by its mnemonic. No arm of `exec` raises it. Safe. -/
  | notModelled (mnemonic : String)
  deriving DecidableEq, Repr

/-- What one step of this machine answers. -/
abbrev StepResult := Host.Outcome State Fault Refusal

/-- The reference environment of spec/20_memory.md R58 with no input: every read fails, every write is accepted. -/
def Port.reset : Port where
  reads := []
  readsThen := some .fail
  writes := []
  writesThen := some .ok
  log := []

/-- `TM` after a start (R201) with an empty program (log entry 7). -/
def Tm.reset : Tm where
  prog := []
  pos := 0
  tape := []
  cur := 0
  js := []
  status := .running

/-- `RM` after a start (R202) with an image of zeros (log entry 7). -/
def Rm.reset : Rm where
  mem := []
  dr := 0#8
  ar := 0#8
  ir := 0#8
  sr := 0#8
  status := .running

/-- The machine right after reset: both cores started, nothing loaded, the default parameters. -/
def State.reset : State where
  cfg := Config.default
  tm := Tm.reset
  rm := Rm.reset
  tmPort := Port.reset
  rmPort := Port.reset
  sched := []
  active := .tm

end Sys2Proof.Machine
end

