-- ==== Sys2Proof/Machine/Ops.lean ====
section
/-! DEFINITION. The named operations over memories, ports, registers and the state, and the one shared way to fail. -/

namespace Sys2Proof.Machine

/-! ### Memories -/

/-- The byte at an address: the listed one, or `unlistedByte`. -/
def Memory.read : Memory → Nat → Byte
  | [], _ => unlistedByte
  | (k, w) :: rest, a => if k = a then w else Memory.read rest a

/-- An entry in front of a memory, left out where it would equal what an unlisted address reads as. -/
def Memory.put (m : Memory) (a : Nat) (v : Byte) : Memory :=
  if v = unlistedByte then m else (a, v) :: m

/-- A memory with the byte at one address replaced, in canonical form. -/
def Memory.write : Memory → Nat → Byte → Memory
  | [], a, v => Memory.put [] a v
  | (k, w) :: rest, a, v =>
    if a < k then Memory.put ((k, w) :: rest) a v
    else if a = k then Memory.put rest a v
    else (k, w) :: Memory.write rest a v

/-- The memory that holds the given bytes from an address on. -/
def Memory.ofBytes : Nat → List Byte → Memory
  | _, [] => []
  | a, b :: rest => Memory.put (Memory.ofBytes (a + 1) rest) a b

/-- The canonical form: addresses strictly rising, no entry equal to what an unlisted address reads as. -/
abbrev Memory.wf (m : Memory) : Prop :=
  m.Pairwise (fun x y => x.1 < y.1) ∧ ∀ c ∈ m, c.2 ≠ unlistedByte

/-- Every listed address is below a bound. -/
abbrev Memory.below (m : Memory) (n : Nat) : Prop := ∀ c ∈ m, c.1 < n

/-! ### The byte-stream port (spec/20_memory.md R52 to R58) -/

/-- `IoRead()` (R53): one read transaction, the answer and the port after it; `none` while the environment has not
answered (R55). DESIGN CHOICE, log entry 21: a read not yet answered is not in the record. -/
def Port.read (p : Port) : Option (ReadAnswer × Port) :=
  match p.reads with
  | a :: rest => some (a, { p with reads := rest, log := p.log ++ [.read a] })
  | [] =>
    match p.readsThen with
    | some a => some (a, { p with log := p.log ++ [.read a] })
    | none => none

/-- `IoWrite(b)` (R54): one write transaction, the answer and the port after it; `none` while the environment has not
answered (R55). DESIGN CHOICE, log entry 21: a byte offered and not yet answered is not in the record. -/
def Port.write (p : Port) (b : Byte) : Option (WriteAnswer × Port) :=
  match p.writes with
  | a :: rest => some (a, { p with writes := rest, log := p.log ++ [.write b a] })
  | [] =>
    match p.writesThen with
    | some a => some (a, { p with log := p.log ++ [.write b a] })
    | none => none

/-! ### Registers and memory of `TM` -/

/-- `POS <- POS + 1` (spec/40_tm_execution_loop.md R91). -/
def Tm.advance (t : Tm) : Tm := { t with pos := t.pos + 1 }

/-- `POS <- p`. -/
def Tm.jumpTo (t : Tm) (p : Nat) : Tm := { t with pos := p }

/-- `CUR <- c`. -/
def Tm.moveTo (t : Tm) (c : Nat) : Tm := { t with cur := c }

/-- `Tape[CUR] <- v` (`TapeWrite` at the cursor, the only address there is: spec/20_memory.md R42). -/
def Tm.setCell (t : Tm) (v : Byte) : Tm := { t with tape := Memory.write t.tape t.cur v }

/-- `JS <- l`, the top first. -/
def Tm.setJs (t : Tm) (l : List Nat) : Tm := { t with js := l }

/-- `STATUS <- v`. -/
def Tm.setStatus (t : Tm) (v : Status) : Tm := { t with status := v }

/-! ### Registers and memory of `RM` -/

/-- `IR <- (IR + 1) mod 256` (spec/44_rm_execution_loop.md R131). -/
def Rm.advance (r : Rm) : Rm := { r with ir := r.ir + 1#8 }

/-- `DR <- v`. -/
def Rm.setDr (r : Rm) (v : Byte) : Rm := { r with dr := v }

/-- `AR <- v`. -/
def Rm.setAr (r : Rm) (v : Byte) : Rm := { r with ar := v }

/-- `IR <- v`. -/
def Rm.setIr (r : Rm) (v : Byte) : Rm := { r with ir := v }

/-- `SR <- v`. -/
def Rm.setSr (r : Rm) (v : Byte) : Rm := { r with sr := v }

/-- `MemWrite(AR, 1, v)` (spec/20_memory.md R43: data accesses are at `AR`). -/
def Rm.setMemAtAr (r : Rm) (v : Byte) : Rm := { r with mem := Memory.write r.mem r.ar.toNat v }

/-- `STATUS <- v`. -/
def Rm.setStatus (r : Rm) (v : Status) : Rm := { r with status := v }

/-! ### The state -/

/-- The state with another `TM` core. -/
def State.setTm (s : State) (t : Tm) : State := { s with tm := t }

/-- The state with another `RM` core. -/
def State.setRm (s : State) (r : Rm) : State := { s with rm := r }

/-- The state with another environment at the port of `TM`. -/
def State.setTmPort (s : State) (p : Port) : State := { s with tmPort := p }

/-- The state with another environment at the port of `RM`. -/
def State.setRmPort (s : State) (p : Port) : State := { s with rmPort := p }

/-- The state with other coming events. -/
def State.setSched (s : State) (l : List Event) : State := { s with sched := l }

/-! ### Failing: the only trap there is (spec/60_exceptions.md R176, R177) -/

/-- `raise k`: `STATUS <- FAILED(k)` and nothing else; `POS` stays at the failing instruction, and the core stops
because its loop runs only while `STATUS` is `RUNNING`. There is no return from it (R180) but a start. -/
def State.raise (s : State) (k : FailKind) : State := s.setTm (s.tm.setStatus (.failed k))

/-- A pass of `TM` that completes with the core `t`: its effect, then the advance of `POS` (R91). -/
def State.tmDone (s : State) (t : Tm) : StepResult := .next (s.setTm t.advance)

/-- A pass of `RM` that completes with the core `r`: its effect, then the trailing increment of `IR` (R131). -/
def State.rmDone (s : State) (r : Rm) : StepResult := .next (s.setRm r.advance)

end Sys2Proof.Machine
end

