-- ==== Sys2Proof/Machine/Operands.lean ====
section
/-! DEFINITION. The operand forms. Every operand is implicit (spec/30_encoding.md R71): the cell at the cursor
(spec/20_memory.md R42), the cell at `AR` (R43), or the byte a port transaction answers. -/

namespace Sys2Proof.Machine

/-- `Tape[CUR]`, the cell at the cursor. -/
def State.cell (s : State) : Byte := Memory.read s.tm.tape s.tm.cur

/-- The guard of every tape access (`TapeRead`, `TapeWrite`; spec/20_memory.md R44): goes on where the cursor names a
cell, raises `TapeIndexFault` at the phantom position, and faults above it (log entry 9). -/
def State.atCell (s : State) (k : StepResult) : StepResult :=
  if s.tm.cur < s.cfg.tapeLen then k
  else if s.tm.cur = s.cfg.tapeLen then .next (s.raise .tapeIndex)
  else .fault .cursorRange

/-- `MemRead(AR, 1)`, the cell at the address register. -/
def State.memAtAr (s : State) : Byte := Memory.read s.rm.mem s.rm.ar.toNat

/-- The byte `RM` takes from the answer to a read: the byte read, or 0 on failure (spec/47_rm_io.md R160). -/
def ReadAnswer.byteOrZero : ReadAnswer → Byte
  | .ok b => b
  | .fail => 0#8

/-- One read transaction at the port of `TM`, then `k` on the answer. While the environment has not answered, the
core waits in its instruction: nothing changes (spec/20_memory.md R55; log entry 3). -/
def State.tmIoRead (s : State) (k : State → ReadAnswer → StepResult) : StepResult :=
  match s.tmPort.read with
  | none => .next s
  | some (a, p) => k (s.setTmPort p) a

/-- One write transaction at the port of `TM`, then `k` on the answer; waits like `tmIoRead`. -/
def State.tmIoWrite (s : State) (b : Byte) (k : State → WriteAnswer → StepResult) : StepResult :=
  match s.tmPort.write b with
  | none => .next s
  | some (a, p) => k (s.setTmPort p) a

/-- One read transaction at the port of `RM`, then `k` on the answer; waits like `tmIoRead`. -/
def State.rmIoRead (s : State) (k : State → ReadAnswer → StepResult) : StepResult :=
  match s.rmPort.read with
  | none => .next s
  | some (a, p) => k (s.setRmPort p) a

/-- One write transaction at the port of `RM`, then `k` on the answer; waits like `tmIoRead`. -/
def State.rmIoWrite (s : State) (b : Byte) (k : State → WriteAnswer → StepResult) : StepResult :=
  match s.rmPort.write b with
  | none => .next s
  | some (a, p) => k (s.setRmPort p) a

end Sys2Proof.Machine
end

