-- ==== Sys2Proof/Machine/Flags.lean ====
section
/-! DEFINITION. Conditions and the encoding of `STATUS`. Neither core has a flag (spec/10_state.md R30): the two
conditional instructions test a data value directly. -/

namespace Sys2Proof.Machine

/-- The test of `]`: the loop repeats when the cell at the cursor is not zero (spec/43_tm_loop.md R121). -/
def loopRepeats (v : Byte) : Bool := v != 0#8

/-- The test of `?`: the skip happens when `DR` is zero (spec/46_rm_control.md R151). -/
def skipTaken (dr : Byte) : Bool := dr == 0#8

/-- Is a jump stack of `n` entries full under `JS_DEPTH` (spec/43_tm_loop.md R120)? Never when it is unbounded. A
depth above `JS_DEPTH`, which no run reaches, counts as full (log entry 11). -/
def jsFull : Option Nat → Nat → Bool
  | none, _ => false
  | some d, n => decide (d ≤ n)

/-- The new value of `CUR` for `>`, or `none` where it raises `CursorOverrun` (spec/41_tm_cursor_cell.md R100). The
guard for a negative cursor has no case: `CUR` is a natural number (R100 corner (c)). -/
def cursorRight (cfg : Config) (cur : Nat) : Option Nat :=
  if cfg.tapeLen < cur + 1 then
    match cfg.fwdOverrun with
    | .wrapZero => some 0
    | .fault => none
  else some (cur + 1)

/-- The new value of `CUR` for `<` (R101): from 0 it goes to `TAPE_LEN`, not `TAPE_LEN - 1`. -/
def cursorLeft (cfg : Config) (cur : Nat) : Nat :=
  if cur = 0 then cfg.tapeLen else cur - 1

/-- The code of a failure kind (spec/60_exceptions.md R172). -/
def FailKind.code : FailKind → Nat
  | .typeShape => 1
  | .stackUnderflow => 2
  | .ioRead => 3
  | .ioWrite => 4
  | .tapeIndex => 5
  | .cursorOverrun => 6
  | .jumpStackOverflow => 7

/-- `STATUS` as the pair (state, kind) the host reads (R172). -/
def Status.pair : Status → Nat × Nat
  | .running => (0, 0)
  | .done => (1, 0)
  | .failed k => (2, k.code)

end Sys2Proof.Machine
end

