-- ==== Sys2Proof/Machine/RmControl.lean ====
section
/-! DEFINITION. `RM` control transfer (spec/46_rm_control.md): `IR` is changed before the trailing increment. -/

namespace Sys2Proof.Machine

/-- `!` (R150): swap `AR` and `IR`, then the trailing increment. -/
def execRmJump (s : State) : StepResult :=
  s.rmDone ((s.rm.setAr s.rm.ir).setIr s.rm.ar)

/-- `?` (R151): one extra increment of `IR` when `DR` is zero, then the trailing increment. -/
def execRmSkipz (s : State) : StepResult :=
  if skipTaken s.rm.dr then s.rmDone (s.rm.setIr (s.rm.ir + 1#8))
  else s.rmDone s.rm

end Sys2Proof.Machine
end

