-- ==== Sys2Proof/Machine/RmData.lean ====
section
/-! DEFINITION. `RM` data instructions (spec/45_rm_data.md) and the no-op (spec/44_rm_execution_loop.md R133). -/

namespace Sys2Proof.Machine

/-- `<` (R140): `DR <- Mem[AR]`. -/
def execRmLoad (s : State) : StepResult :=
  s.rmDone (s.rm.setDr s.memAtAr)

/-- `>` (R141): `Mem[AR] <- DR`. -/
def execRmStore (s : State) : StepResult :=
  s.rmDone (s.rm.setMemAtAr s.rm.dr)

/-- `*` (R142): swap `DR` and `AR`. -/
def execRmPoint (s : State) : StepResult :=
  s.rmDone ((s.rm.setDr s.rm.ar).setAr s.rm.dr)

/-- The backslash (R143): swap `DR` and `SR`. -/
def execRmSwitch (s : State) : StepResult :=
  s.rmDone ((s.rm.setDr s.rm.sr).setSr s.rm.dr)

/-- `+` (R144): `DR <- (Mem[AR] + DR) mod 256`. -/
def execRmAdd (s : State) : StepResult :=
  s.rmDone (s.rm.setDr (s.memAtAr + s.rm.dr))

/-- `-` (R145): `DR <- (Mem[AR] - DR) mod 256`, memory minus register. -/
def execRmSub (s : State) : StepResult :=
  s.rmDone (s.rm.setDr (s.memAtAr - s.rm.dr))

/-- A byte that is no opcode (R133): nothing but the trailing increment, whatever the byte. -/
def execRmNop (_x : Byte) (s : State) : StepResult :=
  s.rmDone s.rm

end Sys2Proof.Machine
end

