-- ==== Sys2Proof/Machine/RmIo.lean ====
section
/-! DEFINITION. `RM` input and output (spec/47_rm_io.md): a port failure never ends the run. -/

namespace Sys2Proof.Machine

/-- What `(` does with the answer: `DR` is the byte read, or 0 on failure (R160). -/
def rmInputAnswered (s : State) (a : ReadAnswer) : StepResult :=
  s.rmDone (s.rm.setDr a.byteOrZero)

/-- `(` (R160): one read. -/
def execRmInput (s : State) : StepResult :=
  s.rmIoRead rmInputAnswered

/-- What `)` does with the answer: it is discarded (R161). -/
def rmOutputAnswered (s : State) (_a : WriteAnswer) : StepResult :=
  s.rmDone s.rm

/-- `)` (R161): one write of `DR`. -/
def execRmOutput (s : State) : StepResult :=
  s.rmIoWrite s.rm.dr rmOutputAnswered

end Sys2Proof.Machine
end

