-- ==== Sys2Proof/Machine/TmCell.lean ====
section
/-! DEFINITION. `TM` cursor and cell instructions (spec/41_tm_cursor_cell.md) and the no-op
(spec/40_tm_execution_loop.md R93). -/

namespace Sys2Proof.Machine

/-- `>` (R100). -/
def execTmRight (s : State) : StepResult :=
  match cursorRight s.cfg s.tm.cur with
  | some c => s.tmDone (s.tm.moveTo c)
  | none => .next (s.raise .cursorOverrun)

/-- `<` (R101). -/
def execTmLeft (s : State) : StepResult :=
  s.tmDone (s.tm.moveTo (cursorLeft s.cfg s.tm.cur))

/-- `+` (R102). -/
def execTmInc (s : State) : StepResult :=
  s.atCell (s.tmDone (s.tm.setCell (s.cell + 1#8)))

/-- `-` (R103). -/
def execTmDec (s : State) : StepResult :=
  s.atCell (s.tmDone (s.tm.setCell (s.cell - 1#8)))

/-- A byte that is no opcode (R93): nothing but the advance, whatever the byte. -/
def execTmNop (_x : Byte) (s : State) : StepResult :=
  s.tmDone s.tm

end Sys2Proof.Machine
end

