-- ==== Sys2Proof/Machine/TmIo.lean ====
section
/-! DEFINITION. `TM` input and output (spec/42_tm_io.md). -/

namespace Sys2Proof.Machine

/-- What `,` does with the answer: store the byte, or end the run with the tape unchanged (R110). -/
def tmInAnswered (s : State) (a : ReadAnswer) : StepResult :=
  match a with
  | .ok b => s.tmDone (s.tm.setCell b)
  | .fail => .next (s.raise .ioRead)

/-- `,` (R110): the phantom check first (R112), then one read. -/
def execTmIn (s : State) : StepResult :=
  s.atCell (s.tmIoRead tmInAnswered)

/-- What `.` does with the answer: go on, or end the run (R111). -/
def tmOutAnswered (s : State) (a : WriteAnswer) : StepResult :=
  match a with
  | .ok => s.tmDone s.tm
  | .fail => .next (s.raise .ioWrite)

/-- `.` (R111): the phantom check first (R112), then one write of the cell at the cursor. -/
def execTmOut (s : State) : StepResult :=
  s.atCell (s.tmIoWrite s.cell tmOutAnswered)

end Sys2Proof.Machine
end

