-- ==== Sys2Proof/Machine/TmLoop.lean ====
section
/-! DEFINITION. `TM` loop instructions and the jump stack (spec/43_tm_loop.md). A bracket pair is a do-while loop
(R122; conflict C1): `[` tests nothing. -/

namespace Sys2Proof.Machine

/-- `[` (R120): push the position of this `[`. -/
def execTmOpen (s : State) : StepResult :=
  if jsFull s.cfg.jsDepth s.tm.js.length then .next (s.raise .jumpStackOverflow)
  else s.tmDone (s.tm.setJs (s.tm.pos :: s.tm.js))

/-- `]` (R121): the stack is checked before the tape is touched (R179). When the loop repeats, the popped position is
pushed back, so `JS` is as it was; a `TapeIndexFault` leaves it as before the pop (conflict C10). -/
def execTmClose (s : State) : StepResult :=
  match s.tm.js with
  | [] => .next (s.raise .stackUnderflow)
  | q :: rest =>
    s.atCell
      (if loopRepeats s.cell then s.tmDone ((s.tm.setJs (q :: rest)).jumpTo q)
       else s.tmDone (s.tm.setJs rest))

end Sys2Proof.Machine
end

