-- ==== Sys2Proof/Machine/Dispatch.lean ====
section
/-! DEFINITION. One arm per instruction, each a direct call of its meaning. -/

namespace Sys2Proof.Machine

def exec (i : Instr) (s : State) : Host.Outcome State Fault Refusal :=
  match i with
  | .tmRight => Sys2Proof.Machine.execTmRight s
  | .tmLeft => Sys2Proof.Machine.execTmLeft s
  | .tmInc => Sys2Proof.Machine.execTmInc s
  | .tmDec => Sys2Proof.Machine.execTmDec s
  | .tmIn => Sys2Proof.Machine.execTmIn s
  | .tmOut => Sys2Proof.Machine.execTmOut s
  | .tmOpen => Sys2Proof.Machine.execTmOpen s
  | .tmClose => Sys2Proof.Machine.execTmClose s
  | .tmNop x => Sys2Proof.Machine.execTmNop x s
  | .rmLoad => Sys2Proof.Machine.execRmLoad s
  | .rmStore => Sys2Proof.Machine.execRmStore s
  | .rmPoint => Sys2Proof.Machine.execRmPoint s
  | .rmJump => Sys2Proof.Machine.execRmJump s
  | .rmSwitch => Sys2Proof.Machine.execRmSwitch s
  | .rmAdd => Sys2Proof.Machine.execRmAdd s
  | .rmSub => Sys2Proof.Machine.execRmSub s
  | .rmInput => Sys2Proof.Machine.execRmInput s
  | .rmOutput => Sys2Proof.Machine.execRmOutput s
  | .rmSkipz => Sys2Proof.Machine.execRmSkipz s
  | .rmNop x => Sys2Proof.Machine.execRmNop x s

end Sys2Proof.Machine
end

