-- ==== Sys2Proof/Machine/Start.lean ====
section
/-! DEFINITION. The host's side of a core: start (spec/70_reset_and_hazards.md R200 to R205) and read-out (R206). -/

namespace Sys2Proof.Machine

/-- `TM` start (R201), on the program the host loaded just before it or, with `none`, on the one in `Prog`. DESIGN
CHOICE, log entry 22: the program is taken in the step of the start itself, whatever `STATUS` was. -/
def Tm.start (t : Tm) (load : Option (List Byte)) : Tm where
  prog := load.getD t.prog
  pos := 0
  tape := []
  cur := 0
  js := []
  status := .running

/-- `RM` start (R202): the core's own copy of the image, registers zero. -/
def Rm.start (image : Vector Byte 256) : Rm where
  mem := Memory.ofBytes 0 image.toList
  dr := 0#8
  ar := 0#8
  ir := 0#8
  sr := 0#8
  status := .running

/-- What the host sees of a core (R206): `STATUS` and the port traffic always, the final state once the run ended. -/
structure HostView (σ : Type) where
  status : Status
  traffic : List Transaction
  final : Option σ
  deriving DecidableEq, Repr

/-- The host's view of `TM`. DESIGN CHOICE, log entry 23: the final state is all of `TM`, `Prog` included, which R206's
list (`POS`, `CUR`, `Tape`, `JS`) does not name. -/
def State.hostViewTm (s : State) : HostView Tm where
  status := s.tm.status
  traffic := s.tmPort.log
  final := if s.tm.status = .running then none else some s.tm

/-- The host's view of `RM`. -/
def State.hostViewRm (s : State) : HostView Rm where
  status := s.rm.status
  traffic := s.rmPort.log
  final := if s.rm.status = .running then none else some s.rm

end Sys2Proof.Machine
end

