-- ==== Sys2Proof/Machine/Loop.lean ====
section
/-! DEFINITION. The two execution loops (spec/40_tm_execution_loop.md R90, spec/44_rm_execution_loop.md R130): the
test before a fetch, the fetch, and one pass; and what one step of the machine does. -/

namespace Sys2Proof.Machine

/-- The test and fetch of `TM`: the byte at `POS`, or `none` when `POS >= PROG_LEN` (R90, R92). -/
def Tm.fetch (t : Tm) : Option Byte := t.prog[t.pos]?

/-- The test and fetch of `RM`: the byte at `IR` in the live memory (R132), or `none` when `IR = 255` (R130). -/
def Rm.fetch (r : Rm) : Option Byte :=
  if r.ir = haltIr then none else some (Memory.read r.mem r.ir.toNat)

/-- One pass of the `TM` loop (R90). A core that is not `RUNNING` executes nothing (R31, R94; log entry 10). -/
def tmPass (s : State) : StepResult :=
  if s.tm.status = .running then
    match s.tm.fetch with
    | none => .next (s.setTm (s.tm.setStatus .done))
    | some b => exec (decodeTm s.cfg.opcodes.tm b) s
  else .next s

/-- One pass of the `RM` loop (R130). A core that is not `RUNNING` executes nothing (R31; log entry 10). -/
def rmPass (s : State) : StepResult :=
  if s.rm.status = .running then
    match s.rm.fetch with
    | none => .next (s.setRm (s.rm.setStatus .done))
    | some b => exec (decodeRm s.cfg.opcodes.rm b) s
  else .next s

/-- One pass of a core. -/
def pass (c : CoreId) (s : State) : StepResult :=
  match c with
  | .tm => tmPass s
  | .rm => rmPass s

/-- What one event does. A start may come at any time and leaves the port as it is (R205). DESIGN CHOICE, log entry 21:
a transaction not yet answered when the start comes is dropped, with no record and no answer taken. -/
def perform (e : Event) (s : State) : StepResult :=
  match e with
  | .pass c => pass c s
  | .startTm load => .next (s.setTm (s.tm.start load))
  | .startRm image => .next (s.setRm (Rm.start image))

/-- One step of the machine: the next event, or a pass of the active core when none is listed (log entry 5). -/
def advance (s : State) : StepResult :=
  match s.sched with
  | [] => pass s.active s
  | e :: rest => perform e (s.setSched rest)

/-! ### Placing an instruction where the next step fetches it (log entry 16) -/

/-- A program with a byte at a position, grown by no-op bytes where it is too short. -/
def placeInProg (prog : List Byte) (pos : Nat) (b : Byte) : List Byte :=
  prog.take pos ++ List.replicate (pos - prog.length) 0#8 ++ b :: prog.drop (pos + 1)

/-- `TM` with the byte at `POS`, `RUNNING`. -/
def Tm.withFetch (t : Tm) (b : Byte) : Tm :=
  { t with prog := placeInProg t.prog t.pos b, status := .running }

/-- `RM` with the byte at `IR`, `RUNNING`; where `IR` is 255, which is never fetched, at address 0. -/
def Rm.withFetch (r : Rm) (b : Byte) : Rm :=
  let p : Byte := if r.ir = haltIr then 0#8 else r.ir
  { r with mem := Memory.write r.mem p.toNat b, ir := p, status := .running }

/-- The machine whose next step is a pass of the core `c` that fetches the byte `b`. -/
def State.withFetchByte (s : State) (c : CoreId) (b : Byte) : State :=
  match c with
  | .tm => { s with tm := s.tm.withFetch b, sched := [], active := .tm }
  | .rm => { s with rm := s.rm.withFetch b, sched := [], active := .rm }

/-- The machine with a table word placed: the first byte is the instruction; `tableCore` says whose. -/
def State.placeTableWord (s : State) (nbits w : Nat) : State :=
  match tableBytes (nbits / 8) w with
  | [] => s
  | b :: _ => s.withFetchByte (tableCore b) b

end Sys2Proof.Machine
end

