-- ==== Sys2Proof/Safety.lean ====
section
/-! DEFINITION. What claims are stated in: the end of a run, runs of several steps, reachable states, and the
invariant of the machine. -/

namespace Sys2Proof.Machine

/-- The next state of an outcome, if it is one. -/
def nextOf : StepResult → Option State
  | .next s => some s
  | .fault _ => none
  | .refused _ => none

/-- `k` steps, stopping at the first fault or refusal (`Host.Core.run` of this machine, `runFor_eq_run`). -/
def runFor : Nat → State → StepResult
  | 0, s => .next s
  | k + 1, s =>
    match step s with
    | .next t => runFor k t
    | .fault f => .fault f
    | .refused r => .refused r

/-- The states that steps lead to. -/
inductive Reaches (s : State) : State → Prop where
  | refl : Reaches s s
  | more {t u : State} (h : Reaches s t) (hs : step t = .next u) : Reaches s u

/-- `STATUS` is `FAILED(k)` for some kind. -/
def Status.isFailed : Status → Bool
  | .running => false
  | .done => false
  | .failed _ => true

/-- A run has ended (spec/70_reset_and_hazards.md R213). -/
abbrev Status.Ended (v : Status) : Prop := v ≠ .running

/-- The jump stack obeys R123: from the top down the entries strictly fall, each is below `POS`, and each is the
position of a `[`. -/
abbrev Tm.JsOk (opn : Byte) (t : Tm) : Prop :=
  t.js.Pairwise (fun p q => q < p) ∧ (∀ q ∈ t.js, q < t.pos) ∧ ∀ q ∈ t.js, t.prog[q]? = some opn

/-- A depth is within `JS_DEPTH`. -/
def withinDepth : Option Nat → Nat → Bool
  | none, _ => true
  | some d, n => decide (n ≤ d)

/-- The `TM` part of the invariant: `POS`, `CUR`, the tape and the jump stack in the ranges of spec/10_state.md R10
and spec/43_tm_loop.md R123. -/
abbrev Tm.Inv (c : Config) (t : Tm) : Prop :=
  t.pos ≤ t.prog.length ∧ t.cur ≤ c.tapeLen ∧ Memory.wf t.tape ∧ Memory.below t.tape c.tapeLen ∧
    t.JsOk c.opcodes.tm.loopOpen ∧ withinDepth c.jsDepth t.js.length = true

/-- The `RM` part of the invariant: memory canonical, 256 cells, and `STATUS` never `FAILED` (spec/60_exceptions.md
R175). -/
abbrev Rm.Inv (r : Rm) : Prop :=
  Memory.wf r.mem ∧ Memory.below r.mem memSize ∧ r.status.isFailed = false

/-- The invariant of the machine: valid parameters, and each core in the ranges the spec gives its state. -/
abbrev State.Inv (s : State) : Prop := s.cfg.Valid ∧ s.tm.Inv s.cfg ∧ s.rm.Inv

end Sys2Proof.Machine
end

