-- ==== Sys2Proof/Certificates/Slice0/Obligations.lean ====
section
/-! DEFINITION. The statements for the provers, in the order of OBLIGATIONS.json. `s` is always any state at all,
reachable or not, unless a premise says otherwise. -/

open Sys2Proof Sys2Proof.Machine

/-! ### Encoding (spec/30_encoding.md) -/

/-- R72, R73 under the ASCII values of R74: the bytes of both maps decode to the instructions they stand for. The values
are the spec's decision D1 (log entry 2). -/
def Obligations.DecodeMapsOfBothCores : Prop :=
  [0x3E#8, 0x3C#8, 0x2B#8, 0x2D#8, 0x2C#8, 0x2E#8, 0x5B#8, 0x5D#8].map (decodeTm TmOpcodes.ascii) =
      [.tmRight, .tmLeft, .tmInc, .tmDec, .tmIn, .tmOut, .tmOpen, .tmClose] ∧
    [0x3C#8, 0x3E#8, 0x2A#8, 0x21#8, 0x5C#8, 0x2B#8, 0x2D#8, 0x28#8, 0x29#8, 0x3F#8].map (decodeRm RmOpcodes.ascii) =
      [.rmLoad, .rmStore, .rmPoint, .rmJump, .rmSwitch, .rmAdd, .rmSub, .rmInput, .rmOutput, .rmSkipz] ∧
    decodeTm TmOpcodes.ascii 0x00#8 = .tmNop 0x00#8 ∧ decodeRm RmOpcodes.ascii 0x00#8 = .rmNop 0x00#8

/-- R77: every byte decodes, to a listed opcode or to the no-op of that byte; 248 and 246 of the 256 byte values are
no-ops under the ASCII map. -/
def Obligations.NoIllegalEncoding : Prop :=
  (∀ (m : OpcodeMap) (b : Byte),
    (∀ (c : CoreId) (rest : List Byte), decode c m (b :: rest) = .ok (decodeByte c m b, rest)) ∧
      (decodeTm m.tm b = .tmNop b ↔ b ∉ m.tm.bytes) ∧ (decodeRm m.rm b = .rmNop b ↔ b ∉ m.rm.bytes)) ∧
    ((List.range 256).filter fun n =>
      decide (decodeTm TmOpcodes.ascii (BitVec.ofNat 8 n) = .tmNop (BitVec.ofNat 8 n))).length = 248 ∧
    ((List.range 256).filter fun n =>
      decide (decodeRm RmOpcodes.ascii (BitVec.ofNat 8 n) = .rmNop (BitVec.ofNat 8 n))).length = 246

/-- Decode after encode, for every instruction of both cores, every valid opcode map and whatever bytes follow. -/
def Obligations.DecodeEncodeAgree : Prop :=
  ∀ (m : OpcodeMap) (i : Instr) (rest : List Byte), m.Valid → i.wellFormed m = true →
    decode i.core m (encode m i ++ rest) = .ok (i, rest)

/-- Encode after decode: for every core, map and byte, the decoded instruction belongs to the core, is well formed, and
its encoding is that byte. -/
def Obligations.EncodeDecodeAgree : Prop :=
  ∀ (c : CoreId) (m : OpcodeMap) (b : Byte) (rest : List Byte),
    ∃ i, decode c m (b :: rest) = .ok (i, rest) ∧ i.core = c ∧ i.wellFormed m = true ∧ encode m i = [b]

/-! ### One step runs the decoded instruction (R90, R130) -/

/-- R90: when `TM` is running and the bytes at `POS` decode to `i`, a step that is a pass of `TM` is `exec i`, after the
event of the schedule, if one was listed, is taken off (the schedule is the model's own, log entry 5). -/
def Obligations.StepRunsDecodedTm : Prop :=
  ∀ (s : State) (i : Instr) (more : List Byte), s.tm.status = .running →
    decode .tm s.cfg.opcodes (s.tm.prog.drop s.tm.pos) = .ok (i, more) →
      (s.sched = [] → s.active = .tm → step s = exec i s) ∧
      ∀ rest, s.sched = .pass .tm :: rest → step s = exec i { s with sched := rest }

/-- R130: when `RM` is running, `IR` is not 255 and the byte at `IR` in the live memory decodes to `i`, a step that is a
pass of `RM` is `exec i`, after the event of the schedule, if one was listed, is taken off (log entry 5). -/
def Obligations.StepRunsDecodedRm : Prop :=
  ∀ (s : State) (i : Instr) (more : List Byte), s.rm.status = .running → s.rm.ir ≠ 255#8 →
    decode .rm s.cfg.opcodes [Memory.read s.rm.mem s.rm.ir.toNat] = .ok (i, more) →
      (s.sched = [] → s.active = .rm → step s = exec i s) ∧
      ∀ rest, s.sched = .pass .rm :: rest → step s = exec i { s with sched := rest }

/-- R92: a running `TM` whose `POS` is not below `PROG_LEN` ends with `DONE` and nothing else changes, whatever is on the
jump stack. That the pass is of `TM`, and that its event is taken off the schedule where one was listed, is the model's
own choice (log entry 5). -/
def Obligations.TmEndsAtProgramEnd : Prop :=
  ∀ s : State, s.tm.status = .running → s.tm.prog.length ≤ s.tm.pos →
    (s.sched = [] → s.active = .tm → step s = .next { s with tm := { s.tm with status := .done } }) ∧
    ∀ rest, s.sched = .pass .tm :: rest →
      step s = .next { s with sched := rest, tm := { s.tm with status := .done } }

/-- R130's test: a running `RM` with `IR = 255` ends with `DONE` and nothing else changes; `Mem[255]` is not fetched.
The schedule is the model's own (log entry 5). -/
def Obligations.RmHaltsAt255 : Prop :=
  ∀ s : State, s.rm.status = .running → s.rm.ir = 255#8 →
    (s.sched = [] → s.active = .rm → step s = .next { s with rm := { s.rm with status := .done } }) ∧
    ∀ rest, s.sched = .pass .rm :: rest →
      step s = .next { s with sched := rest, rm := { s.rm with status := .done } }

/-- The model's own placing of a table word (log entries 6 and 16): from every state under the ASCII map whose `RM`
memory is canonical (part of the invariant), the step after
it runs the instruction the decoder reads from the word. -/
def Obligations.PlacedWordRunsNext : Prop :=
  ∀ (s : State) (w : Nat) (i : Instr), s.cfg.opcodes = OpcodeMap.ascii → Memory.wf s.rm.mem →
    decodeTableWord 8 w = some i →
    step (s.withFetchWord 8 w) = exec i (s.withFetchWord 8 w)

/-! ### The `TM` instructions, one rule each -/

/-- R100. The wrap at the phantom position is the spec's decision D3. -/
def Obligations.TmRightMovesCursor : Prop :=
  decodeTm TmOpcodes.ascii 0x3E#8 = .tmRight ∧ ∀ s : State,
    (s.tm.cur < s.cfg.tapeLen →
      exec .tmRight s = .next { s with tm := { s.tm with cur := s.tm.cur + 1, pos := s.tm.pos + 1 } }) ∧
    (s.tm.cur = s.cfg.tapeLen → s.cfg.fwdOverrun = .wrapZero →
      exec .tmRight s = .next { s with tm := { s.tm with cur := 0, pos := s.tm.pos + 1 } }) ∧
    (s.tm.cur = s.cfg.tapeLen → s.cfg.fwdOverrun = .fault →
      exec .tmRight s = .next { s with tm := { s.tm with status := .failed .cursorOverrun } })

/-- R101: from 0 the cursor goes to `TAPE_LEN`, not `TAPE_LEN - 1`. -/
def Obligations.TmLeftMovesCursor : Prop :=
  decodeTm TmOpcodes.ascii 0x3C#8 = .tmLeft ∧ ∀ s : State,
    exec .tmLeft s = .next { s with tm := { s.tm with
      cur := if s.tm.cur = 0 then s.cfg.tapeLen else s.tm.cur - 1
      pos := s.tm.pos + 1 } }

/-- R102, with the frame: one cell changes, every other reads as before. The failure at the phantom position is R44,
the spec's decision D4. -/
def Obligations.TmIncAddsOneToCell : Prop :=
  decodeTm TmOpcodes.ascii 0x2B#8 = .tmInc ∧ ∀ s : State,
    (s.tm.cur < s.cfg.tapeLen → Memory.wf s.tm.tape →
      ∃ tape, exec .tmInc s = .next { s with tm := { s.tm with tape := tape, pos := s.tm.pos + 1 } } ∧
        Memory.wf tape ∧ Memory.read tape s.tm.cur = Memory.read s.tm.tape s.tm.cur + 1#8 ∧
        ∀ a, a ≠ s.tm.cur → Memory.read tape a = Memory.read s.tm.tape a) ∧
    (s.tm.cur = s.cfg.tapeLen →
      exec .tmInc s = .next { s with tm := { s.tm with status := .failed .tapeIndex } })

/-- R103, with the frame: one cell changes, every other reads as before. The failure at the phantom position is R44,
the spec's decision D4. -/
def Obligations.TmDecSubtractsOneFromCell : Prop :=
  decodeTm TmOpcodes.ascii 0x2D#8 = .tmDec ∧ ∀ s : State,
    (s.tm.cur < s.cfg.tapeLen → Memory.wf s.tm.tape →
      ∃ tape, exec .tmDec s = .next { s with tm := { s.tm with tape := tape, pos := s.tm.pos + 1 } } ∧
        Memory.wf tape ∧ Memory.read tape s.tm.cur = Memory.read s.tm.tape s.tm.cur - 1#8 ∧
        ∀ a, a ≠ s.tm.cur → Memory.read tape a = Memory.read s.tm.tape a) ∧
    (s.tm.cur = s.cfg.tapeLen →
      exec .tmDec s = .next { s with tm := { s.tm with status := .failed .tapeIndex } })

/-- R110, with R112's order: at the phantom position no transaction is made; a byte that arrives is stored; a failed
read ends the run with the tape and `POS` as they were. The failure at the phantom position is R44, the spec's
decision D4. -/
def Obligations.TmInReadsByteIntoCell : Prop :=
  decodeTm TmOpcodes.ascii 0x2C#8 = .tmIn ∧ ∀ s : State,
    (s.tm.cur = s.cfg.tapeLen →
      exec .tmIn s = .next { s with tm := { s.tm with status := .failed .tapeIndex } }) ∧
    (s.tm.cur < s.cfg.tapeLen → ∀ p, s.tmPort.read = some (.fail, p) →
      exec .tmIn s = .next { s with tmPort := p, tm := { s.tm with status := .failed .ioRead } }) ∧
    (s.tm.cur < s.cfg.tapeLen → Memory.wf s.tm.tape → ∀ b p, s.tmPort.read = some (.ok b, p) →
      ∃ tape, exec .tmIn s = .next { s with
          tmPort := p, tm := { s.tm with tape := tape, pos := s.tm.pos + 1 } } ∧
        Memory.wf tape ∧ Memory.read tape s.tm.cur = b ∧
        ∀ a, a ≠ s.tm.cur → Memory.read tape a = Memory.read s.tm.tape a)

/-- R111, with R112's order: at the phantom position no transaction is made; otherwise the byte offered is the cell at
the cursor; a failed write ends the run. The tape never changes. The failure at the phantom position is R44, the
spec's decision D4. -/
def Obligations.TmOutWritesCell : Prop :=
  decodeTm TmOpcodes.ascii 0x2E#8 = .tmOut ∧ ∀ s : State,
    (s.tm.cur = s.cfg.tapeLen →
      exec .tmOut s = .next { s with tm := { s.tm with status := .failed .tapeIndex } }) ∧
    (s.tm.cur < s.cfg.tapeLen → ∀ p, s.tmPort.write (Memory.read s.tm.tape s.tm.cur) = some (.fail, p) →
      exec .tmOut s = .next { s with tmPort := p, tm := { s.tm with status := .failed .ioWrite } }) ∧
    (s.tm.cur < s.cfg.tapeLen → ∀ p, s.tmPort.write (Memory.read s.tm.tape s.tm.cur) = some (.ok, p) →
      exec .tmOut s = .next { s with tmPort := p, tm := { s.tm with pos := s.tm.pos + 1 } })

/-- R120: the position of the `[` is pushed (the head of the list is the top), whatever the cell and the cursor; a full
finite stack fails (the spec's decision D6). -/
def Obligations.TmOpenPushesPosition : Prop :=
  decodeTm TmOpcodes.ascii 0x5B#8 = .tmOpen ∧ ∀ s : State,
    ((s.cfg.jsDepth = none ∨ ∃ d, s.cfg.jsDepth = some d ∧ s.tm.js.length < d) →
      exec .tmOpen s = .next { s with tm := { s.tm with js := s.tm.pos :: s.tm.js, pos := s.tm.pos + 1 } }) ∧
    (s.cfg.jsDepth = some s.tm.js.length →
      exec .tmOpen s = .next { s with tm := { s.tm with status := .failed .jumpStackOverflow } })

/-- R121: an empty stack fails before the tape is looked at; at the phantom position the stack stays as before the pop
(conflict C10, the spec's decisions D4 and D10); a zero cell pops and goes on; a non-zero cell leaves the stack and continues after the `[`. -/
def Obligations.TmCloseRepeatsOrExits : Prop :=
  decodeTm TmOpcodes.ascii 0x5D#8 = .tmClose ∧ ∀ s : State,
    (s.tm.js = [] →
      exec .tmClose s = .next { s with tm := { s.tm with status := .failed .stackUnderflow } }) ∧
    ∀ q rest, s.tm.js = q :: rest →
      (s.tm.cur = s.cfg.tapeLen →
        exec .tmClose s = .next { s with tm := { s.tm with status := .failed .tapeIndex } }) ∧
      (s.tm.cur < s.cfg.tapeLen → Memory.read s.tm.tape s.tm.cur = 0#8 →
        exec .tmClose s = .next { s with tm := { s.tm with js := rest, pos := s.tm.pos + 1 } }) ∧
      (s.tm.cur < s.cfg.tapeLen → Memory.read s.tm.tape s.tm.cur ≠ 0#8 →
        exec .tmClose s = .next { s with tm := { s.tm with pos := q + 1 } })

/-- R93: every byte that is none of the eight opcode values is a no-op, which moves `POS` and nothing else. -/
def Obligations.TmNopOnlyAdvances : Prop :=
  (∀ b : Byte, b ∉ [0x3E#8, 0x3C#8, 0x2B#8, 0x2D#8, 0x2C#8, 0x2E#8, 0x5B#8, 0x5D#8] →
    decodeTm TmOpcodes.ascii b = .tmNop b) ∧
  ∀ (x : Byte) (s : State), exec (.tmNop x) s = .next { s with tm := { s.tm with pos := s.tm.pos + 1 } }

/-! ### The `RM` instructions, one rule each -/

/-- R140. -/
def Obligations.RmLoadReadsCellAtAr : Prop :=
  decodeRm RmOpcodes.ascii 0x3C#8 = .rmLoad ∧ ∀ s : State,
    exec .rmLoad s = .next { s with rm := { s.rm with
      dr := Memory.read s.rm.mem s.rm.ar.toNat, ir := s.rm.ir + 1#8 } }

/-- R141, with the frame: the byte at `AR` changes, every other reads as before, 255 and the store's own cell
included. -/
def Obligations.RmStoreWritesCellAtAr : Prop :=
  decodeRm RmOpcodes.ascii 0x3E#8 = .rmStore ∧ ∀ s : State, Memory.wf s.rm.mem →
    ∃ mem, exec .rmStore s = .next { s with rm := { s.rm with mem := mem, ir := s.rm.ir + 1#8 } } ∧
      Memory.wf mem ∧ Memory.read mem s.rm.ar.toNat = s.rm.dr ∧
      ∀ a, a ≠ s.rm.ar.toNat → Memory.read mem a = Memory.read s.rm.mem a

/-- R142: `DR` and `AR` are exchanged; applied twice, both are as before. -/
def Obligations.RmPointSwapsDrAr : Prop :=
  decodeRm RmOpcodes.ascii 0x2A#8 = .rmPoint ∧ ∀ s : State,
    ∃ t, exec .rmPoint s = .next t ∧
      t = { s with rm := { s.rm with dr := s.rm.ar, ar := s.rm.dr, ir := s.rm.ir + 1#8 } } ∧
      exec .rmPoint t = .next { s with rm := { s.rm with ir := s.rm.ir + 2#8 } }

/-- R143: `DR` and `SR` are exchanged; applied twice, both are as before. -/
def Obligations.RmSwitchSwapsDrSr : Prop :=
  decodeRm RmOpcodes.ascii 0x5C#8 = .rmSwitch ∧ ∀ s : State,
    ∃ t, exec .rmSwitch s = .next t ∧
      t = { s with rm := { s.rm with dr := s.rm.sr, sr := s.rm.dr, ir := s.rm.ir + 1#8 } } ∧
      exec .rmSwitch t = .next { s with rm := { s.rm with ir := s.rm.ir + 2#8 } }

/-- R144: the new `DR`, as a number, is the sum modulo 256. -/
def Obligations.RmAddAddsCellAtAr : Prop :=
  decodeRm RmOpcodes.ascii 0x2B#8 = .rmAdd ∧ ∀ s : State,
    ∃ v : Byte, v.toNat = ((Memory.read s.rm.mem s.rm.ar.toNat).toNat + s.rm.dr.toNat) % 256 ∧
      exec .rmAdd s = .next { s with rm := { s.rm with dr := v, ir := s.rm.ir + 1#8 } }

/-- R145: the new `DR`, as a number, is memory minus register modulo 256. -/
def Obligations.RmSubSubtractsDrFromCell : Prop :=
  decodeRm RmOpcodes.ascii 0x2D#8 = .rmSub ∧ ∀ s : State,
    ∃ v : Byte,
      (v.toNat : Int) = ((Memory.read s.rm.mem s.rm.ar.toNat).toNat - s.rm.dr.toNat : Int) % 256 ∧
      exec .rmSub s = .next { s with rm := { s.rm with dr := v, ir := s.rm.ir + 1#8 } }

/-- R150: `AR` takes the address of the `!`, and execution continues at the old `AR` plus one. -/
def Obligations.RmJumpSwapsArIr : Prop :=
  decodeRm RmOpcodes.ascii 0x21#8 = .rmJump ∧ ∀ s : State,
    exec .rmJump s = .next { s with rm := { s.rm with ar := s.rm.ir, ir := s.rm.ar + 1#8 } }

/-- R151: two increments when `DR` is zero, one otherwise, both modulo 256. -/
def Obligations.RmSkipzSkipsOnZero : Prop :=
  decodeRm RmOpcodes.ascii 0x3F#8 = .rmSkipz ∧ ∀ s : State,
    exec .rmSkipz s = .next { s with rm := { s.rm with
      ir := if s.rm.dr = 0#8 then s.rm.ir + 2#8 else s.rm.ir + 1#8 } }

/-- R160: the byte read, or 0 on failure; the run goes on either way. -/
def Obligations.RmInputReadsByteOrZero : Prop :=
  decodeRm RmOpcodes.ascii 0x28#8 = .rmInput ∧ ∀ (s : State) (p : Port),
    (∀ b, s.rmPort.read = some (.ok b, p) →
      exec .rmInput s = .next { s with rmPort := p, rm := { s.rm with dr := b, ir := s.rm.ir + 1#8 } }) ∧
    (s.rmPort.read = some (.fail, p) →
      exec .rmInput s = .next { s with rmPort := p, rm := { s.rm with dr := 0#8, ir := s.rm.ir + 1#8 } })

/-- R161: `DR` is offered to the port; whatever the answer, only `IR` changes. -/
def Obligations.RmOutputIgnoresAnswer : Prop :=
  decodeRm RmOpcodes.ascii 0x29#8 = .rmOutput ∧ ∀ (s : State) (a : WriteAnswer) (p : Port),
    s.rmPort.write s.rm.dr = some (a, p) →
      exec .rmOutput s = .next { s with rmPort := p, rm := { s.rm with ir := s.rm.ir + 1#8 } }

/-- R133: every byte that is none of the ten opcode values is a no-op, which moves `IR` and nothing else. -/
def Obligations.RmNopOnlyAdvances : Prop :=
  (∀ b : Byte, b ∉ [0x3C#8, 0x3E#8, 0x2A#8, 0x21#8, 0x5C#8, 0x2B#8, 0x2D#8, 0x28#8, 0x29#8, 0x3F#8] →
    decodeRm RmOpcodes.ascii b = .rmNop b) ∧
  ∀ (x : Byte) (s : State), exec (.rmNop x) s = .next { s with rm := { s.rm with ir := s.rm.ir + 1#8 } }

/-! ### The port (spec/20_memory.md R52 to R58) -/

/-- The reference environment of R58 in the model's form of a port (log entry 3): the input is read byte by byte, then
every read fails for ever; every write gets the answer `w`; each transaction is recorded. -/
def Obligations.ReferenceEnvironmentAnswers : Prop :=
  ∀ (queue : List Byte) (w : WriteAnswer) (done : List Transaction),
    let env (q : List Byte) (l : List Transaction) : Port :=
      { reads := q.map .ok, readsThen := some .fail, writes := [], writesThen := some w, log := l }
    (∀ b, (env (b :: queue) done).read = some (.ok b, env queue (done ++ [.read (.ok b)]))) ∧
      (env [] done).read = some (.fail, env [] (done ++ [.read .fail])) ∧
      ∀ b, (env queue done).write b = some (w, env queue (done ++ [.write b w]))

/-- R55 in the model's form (log entry 3): while the environment has not answered, the core waits in its instruction and
nothing changes. -/
def Obligations.UnansweredPortWaits : Prop :=
  ∀ s : State,
    (s.tm.cur < s.cfg.tapeLen → s.tmPort.read = none → exec .tmIn s = .next s) ∧
    (s.tm.cur < s.cfg.tapeLen → s.tmPort.write (Memory.read s.tm.tape s.tm.cur) = none →
      exec .tmOut s = .next s) ∧
    (s.rmPort.read = none → exec .rmInput s = .next s) ∧
    (s.rmPort.write s.rm.dr = none → exec .rmOutput s = .next s)

/-- R55: an instruction makes at most one transaction, only the four I/O instructions make any, each at its own core's
port, and one that completes makes exactly one, with the byte the rule says. So does a `,` or `.` of a running `TM` that
ends in `IoRead` or `IoWrite` (R177): the failed transaction is in the record. -/
def Obligations.OneTransactionPerIo : Prop :=
  ∀ (i : Instr) (s t : State), exec i s = .next t →
    (t.tmPort.log = s.tmPort.log ∨
      (i = .tmIn ∧ ∃ a, t.tmPort.log = s.tmPort.log ++ [.read a]) ∨
      (i = .tmOut ∧ ∃ a, t.tmPort.log = s.tmPort.log ++ [.write (Memory.read s.tm.tape s.tm.cur) a])) ∧
    (t.rmPort.log = s.rmPort.log ∨
      (i = .rmInput ∧ ∃ a, t.rmPort.log = s.rmPort.log ++ [.read a]) ∨
      (i = .rmOutput ∧ ∃ a, t.rmPort.log = s.rmPort.log ++ [.write s.rm.dr a])) ∧
    (i = .tmIn → t.tm.pos = s.tm.pos + 1 → ∃ b, t.tmPort.log = s.tmPort.log ++ [.read (.ok b)]) ∧
    (i = .tmOut → t.tm.pos = s.tm.pos + 1 →
      t.tmPort.log = s.tmPort.log ++ [.write (Memory.read s.tm.tape s.tm.cur) .ok]) ∧
    (i = .tmIn → s.tm.status = .running → t.tm.status = .failed .ioRead →
      t.tmPort.log = s.tmPort.log ++ [.read .fail]) ∧
    (i = .tmOut → s.tm.status = .running → t.tm.status = .failed .ioWrite →
      t.tmPort.log = s.tmPort.log ++ [.write (Memory.read s.tm.tape s.tm.cur) .fail]) ∧
    (i = .rmInput → t.rm.ir = s.rm.ir + 1#8 → ∃ a, t.rmPort.log = s.rmPort.log ++ [.read a]) ∧
    (i = .rmOutput → t.rm.ir = s.rm.ir + 1#8 → ∃ a, t.rmPort.log = s.rmPort.log ++ [.write s.rm.dr a])

/-- R57: no step, failure or start takes back a transaction. -/
def Obligations.TrafficNeverRetracted : Prop :=
  ∀ s t : State, step s = .next t → s.tmPort.log <+: t.tmPort.log ∧ s.rmPort.log <+: t.rmPort.log

/-! ### Failures (spec/60_exceptions.md) -/

/-- R172: the codes of `STATUS`, and for each kind which instruction raises it and when: the table, as an equivalence.
The priority of R179 is in it. The kinds 5 to 7 are the spec's own (its decisions D3, D4, D6), and so are the numbers
(its decision D9). -/
def Obligations.FailureKindsAndCauses : Prop :=
  (Status.pair .running = (0, 0) ∧ Status.pair .done = (1, 0) ∧
    Status.pair (.failed .typeShape) = (2, 1) ∧ Status.pair (.failed .stackUnderflow) = (2, 2) ∧
    Status.pair (.failed .ioRead) = (2, 3) ∧ Status.pair (.failed .ioWrite) = (2, 4) ∧
    Status.pair (.failed .tapeIndex) = (2, 5) ∧ Status.pair (.failed .cursorOverrun) = (2, 6) ∧
    Status.pair (.failed .jumpStackOverflow) = (2, 7)) ∧
  ∀ (i : Instr) (s t : State) (k : FailKind), s.tm.status = .running → s.tm.cur ≤ s.cfg.tapeLen →
    withinDepth s.cfg.jsDepth s.tm.js.length = true → exec i s = .next t →
    (t.tm.status = .failed k ↔
      match k with
      | .typeShape => False
      | .stackUnderflow => i = .tmClose ∧ s.tm.js = []
      | .ioRead => i = .tmIn ∧ s.tm.cur < s.cfg.tapeLen ∧ ∃ p, s.tmPort.read = some (.fail, p)
      | .ioWrite => i = .tmOut ∧ s.tm.cur < s.cfg.tapeLen ∧
          ∃ p, s.tmPort.write (Memory.read s.tm.tape s.tm.cur) = some (.fail, p)
      | .tapeIndex => s.tm.cur = s.cfg.tapeLen ∧
          (i = .tmInc ∨ i = .tmDec ∨ i = .tmIn ∨ i = .tmOut ∨ i = .tmClose ∧ s.tm.js ≠ [])
      | .cursorOverrun => i = .tmRight ∧ s.tm.cur = s.cfg.tapeLen ∧ s.cfg.fwdOverrun = .fault
      | .jumpStackOverflow => i = .tmOpen ∧ s.cfg.jsDepth = some s.tm.js.length)

/-- R177 (the spec's decision D10): an instruction that fails changes nothing but `STATUS`, so `POS` stays at it; only a
`,` or `.` whose transaction failed has also touched the port. -/
def Obligations.FailuresArePrecise : Prop :=
  ∀ (i : Instr) (s t : State) (k : FailKind), s.tm.status = .running → exec i s = .next t →
    t.tm.status = .failed k →
      t = { s with tm := { s.tm with status := .failed k }, tmPort := t.tmPort } ∧
      (t.tmPort = s.tmPort ∨ (i = .tmIn ∧ k = .ioRead) ∨ (i = .tmOut ∧ k = .ioWrite))

/-- R31, R180: once a core has left `RUNNING`, no step changes it or its port until the next start of that core. -/
def Obligations.StoppedCoreStaysUntilStart : Prop :=
  ∀ s t : State, step s = .next t →
    (s.tm.status ≠ .running →
      (t.tm = s.tm ∧ t.tmPort = s.tmPort) ∨ ∃ load rest, s.sched = .startTm load :: rest) ∧
    (s.rm.status ≠ .running →
      (t.rm = s.rm ∧ t.rmPort = s.rmPort) ∨ ∃ image rest, s.sched = .startRm image :: rest)

/-- R213: a running core gets `DONE` only from the test before its fetch. -/
def Obligations.DoneOnlyFromLoopTest : Prop :=
  ∀ s t : State, step s = .next t →
    (s.tm.status = .running → t.tm.status = .done → s.tm.prog.length ≤ s.tm.pos) ∧
    (s.rm.status = .running → t.rm.status = .done → s.rm.ir = 255#8)

/-- R136, R175: every `RM` instruction completes or waits from every state and leaves `STATUS` alone, and no step makes
`RM` fail. -/
def Obligations.RmNeverFails : Prop :=
  (∀ (i : Instr) (s : State), i.core = .rm → ∃ t, exec i s = .next t ∧ t.rm.status = s.rm.status) ∧
  ∀ s t : State, step s = .next t → s.rm.status.isFailed = false → t.rm.status.isFailed = false

/-- The model refuses nothing, and its one fault is a `TM` tape access with `CUR` above `TAPE_LEN`, a value R14 says the
register cannot hold (the model's choice, log entry 9). -/
def Obligations.OnlyFaultIsCursorRange : Prop :=
  ∀ (i : Instr) (s : State), (∀ r, exec i s ≠ .refused r) ∧
    ∀ f, exec i s = .fault f ↔ f = .cursorRange ∧ s.cfg.tapeLen < s.tm.cur ∧
      (i = .tmInc ∨ i = .tmDec ∨ i = .tmIn ∨ i = .tmOut ∨ i = .tmClose ∧ s.tm.js ≠ [])

/-! ### Start, reset, host (spec/70_reset_and_hazards.md) -/

/-- R201: a start of `TM`, from every state (also while running, R205): `POS`, `CUR` and every cell 0, `JS` empty,
`RUNNING`; `Prog` is what the host loaded before it, or not changed; everything else stays. `CUR = 0` is the spec's
decision D2. That the program may come with the start, also while running, is the model's choice (log entries 7 and
22); the schedule is its own (log entry 5). -/
def Obligations.TmStartEstablishesReset : Prop :=
  ∀ (s : State) (load : Option (List Byte)) (rest : List Event), s.sched = .startTm load :: rest →
    ∃ tm, step s = .next { s with sched := rest, tm := tm } ∧ tm.prog = load.getD s.tm.prog ∧ tm.pos = 0 ∧
      tm.cur = 0 ∧ tm.js = [] ∧ tm.status = .running ∧ Memory.wf tm.tape ∧ ∀ a, Memory.read tm.tape a = 0#8

/-- R202: a start of `RM`, from every state (also while running, R205): every cell is the byte of the image, the
registers are 0, `RUNNING`; everything else stays. The schedule is the model's own (log entry 5). -/
def Obligations.RmStartLoadsImage : Prop :=
  ∀ (s : State) (image : Vector Byte 256) (rest : List Event), s.sched = .startRm image :: rest →
    ∃ rm, step s = .next { s with sched := rest, rm := rm } ∧ rm.dr = 0#8 ∧ rm.ar = 0#8 ∧ rm.ir = 0#8 ∧
      rm.sr = 0#8 ∧ rm.status = .running ∧ Memory.wf rm.mem ∧ Memory.below rm.mem 256 ∧
      ∀ (a : Nat) (h : a < 256), Memory.read rm.mem a = image[a]

/-- The state after reset. That the program is empty and the image all zero is the model's choice (log entry 7), as are
the environment (4) and the schedule (5); they are not stated here. -/
def Obligations.ResetValues : Prop :=
  State.reset.tm.pos = 0 ∧ State.reset.tm.cur = 0 ∧ State.reset.tm.js = [] ∧ State.reset.tm.status = .running ∧
    (∀ a, Memory.read State.reset.tm.tape a = 0#8) ∧ State.reset.rm.dr = 0#8 ∧ State.reset.rm.ar = 0#8 ∧
    State.reset.rm.ir = 0#8 ∧ State.reset.rm.sr = 0#8 ∧ State.reset.rm.status = .running ∧
    State.reset.cfg.tapeLen = 65536 ∧ State.reset.cfg.fwdOverrun = .wrapZero ∧ State.reset.cfg.jsDepth = none ∧
    State.reset.cfg.opcodes = OpcodeMap.ascii

/-- The invariant holds after reset. -/
def Obligations.ResetMeetsInvariant : Prop := State.reset.Inv

/-- R206 (the spec's decision D13): the host sees `STATUS` and the traffic always, and the final state exactly when the
run has ended. That the final state of `TM` holds `Prog` too, which R206 does not list, is the model's choice (log entry
23). -/
def Obligations.HostSeesFinalStateOnlyAfterEnd : Prop :=
  ∀ s : State,
    (s.hostViewTm.status = s.tm.status ∧ s.hostViewTm.traffic = s.tmPort.log ∧
      (s.hostViewTm.final = if s.tm.status.Ended then some s.tm else none)) ∧
    (s.hostViewRm.status = s.rm.status ∧ s.hostViewRm.traffic = s.rmPort.log ∧
      (s.hostViewRm.final = if s.rm.status.Ended then some s.rm else none))

/-! ### Rules about the whole machine -/

/-- R5, R3: no step changes a parameter, and only a start with a load changes the program (log entries 7 and 22). -/
def Obligations.ParametersAndProgramFixed : Prop :=
  ∀ s t : State, step s = .next t → t.cfg = s.cfg ∧
    (t.tm.prog = s.tm.prog ∨ ∃ p rest, s.sched = .startTm (some p) :: rest ∧ t.tm.prog = p)

/-- The "written by" columns of R10 and R20, with `STATUS`, and the `w` entries and the port column of the matrix of R26:
what each instruction can leave changed. An instruction changes `STATUS` only by `raise` (R31), so that of `RM` never;
which `TM` instructions raise is R172's table, and that each core uses its own port is R40 and R55. That `sched` and
`active` stay is about the model's own fields (log entry 5). -/
def Obligations.OnlyListedInstructionsWrite : Prop :=
  ∀ (i : Instr) (s t : State), exec i s = .next t →
    t.cfg = s.cfg ∧ t.sched = s.sched ∧ t.active = s.active ∧ t.tm.prog = s.tm.prog ∧
    (t.tm.cur ≠ s.tm.cur → i = .tmRight ∨ i = .tmLeft) ∧
    (t.tm.tape ≠ s.tm.tape → i = .tmInc ∨ i = .tmDec ∨ i = .tmIn) ∧
    (t.tm.js ≠ s.tm.js → i = .tmOpen ∨ i = .tmClose) ∧
    (t.tm.pos ≠ s.tm.pos → i.core = .tm ∧ (t.tm.pos = s.tm.pos + 1 ∨ i = .tmClose)) ∧
    (t.rm.mem ≠ s.rm.mem → i = .rmStore) ∧
    (t.rm.dr ≠ s.rm.dr →
      i = .rmLoad ∨ i = .rmPoint ∨ i = .rmSwitch ∨ i = .rmAdd ∨ i = .rmSub ∨ i = .rmInput) ∧
    (t.rm.ar ≠ s.rm.ar → i = .rmPoint ∨ i = .rmJump) ∧
    (t.rm.sr ≠ s.rm.sr → i = .rmSwitch) ∧
    (t.rm.ir ≠ s.rm.ir → i.core = .rm ∧ (t.rm.ir = s.rm.ir + 1#8 ∨ i = .rmJump ∨ i = .rmSkipz)) ∧
    t.rm.status = s.rm.status ∧
    (t.tm.status ≠ s.tm.status → t.tm.status.isFailed = true ∧
      (i = .tmRight ∨ i = .tmInc ∨ i = .tmDec ∨ i = .tmIn ∨ i = .tmOut ∨ i = .tmOpen ∨ i = .tmClose)) ∧
    (t.tmPort ≠ s.tmPort → i = .tmIn ∨ i = .tmOut) ∧
    (t.rmPort ≠ s.rmPort → i = .rmInput ∨ i = .rmOutput)

/-- The invariant: valid parameters; `POS`, `CUR`, the jump stack (R123), the tape and the memory in the ranges the spec
gives them, both memories canonical; `RM` not failed. Every step keeps it. -/
def Obligations.StepKeepsInvariant : Prop :=
  ∀ s t : State, s.Inv → step s = .next t → t.Inv

/-- From a state that meets the invariant, no run of any length stops with a fault or a refusal. -/
def Obligations.NoRunStops : Prop :=
  ∀ (s : State) (k : Nat), s.Inv → ∃ t, runFor k s = .next t ∧ t.Inv

/-- R124: the depth never exceeds the number of `[` bytes in the program, and a finite stack of at least that many
entries never overflows. -/
def Obligations.JumpStackDepthBounded : Prop :=
  ∀ s : State, s.Inv →
    s.tm.js.length ≤ s.tm.prog.count s.cfg.opcodes.tm.loopOpen ∧
    ∀ t d, s.cfg.jsDepth = some d → s.tm.prog.count s.cfg.opcodes.tm.loopOpen ≤ d → s.tm.status = .running →
      step s = .next t → t.tm.status ≠ .failed .jumpStackOverflow

/-- R104 under `wrap_zero`: `>` and `<` undo each other at every cursor value `0 .. TAPE_LEN`. -/
def Obligations.CursorMovesAreInverse : Prop :=
  ∀ s : State, s.tm.cur ≤ s.cfg.tapeLen → s.cfg.fwdOverrun = .wrapZero →
    (∃ t, exec .tmRight s = .next t ∧
      exec .tmLeft t = .next { s with tm := { s.tm with pos := s.tm.pos + 2 } }) ∧
    ∃ t, exec .tmLeft s = .next t ∧
      exec .tmRight t = .next { s with tm := { s.tm with pos := s.tm.pos + 2 } }

/-- R105: `+` and `-` undo each other at an unmoved cursor, in either order; the tape is the same as data. -/
def Obligations.CellStepsAreInverse : Prop :=
  ∀ s : State, s.tm.cur < s.cfg.tapeLen → Memory.wf s.tm.tape →
    (∃ t, exec .tmInc s = .next t ∧
      exec .tmDec t = .next { s with tm := { s.tm with pos := s.tm.pos + 2 } }) ∧
    ∃ t, exec .tmDec s = .next t ∧
      exec .tmInc t = .next { s with tm := { s.tm with pos := s.tm.pos + 2 } }

/-- R134: which passes of a running `RM` leave `IR` at 255 (the next pass halts), and the two ways to step over 255. The
premises on the port say the environment has answered (log entry 3). -/
def Obligations.RmWaysToReach255 : Prop :=
  ∀ (s t : State) (i : Instr), s.rm.status = .running → s.rm.ir ≠ 255#8 →
    decodeRm s.cfg.opcodes.rm (Memory.read s.rm.mem s.rm.ir.toNat) = i →
    s.rmPort.read ≠ none → s.rmPort.write s.rm.dr ≠ none → rmPass s = .next t →
      (t.rm.ir = 255#8 ↔
        (i = .rmJump ∧ s.rm.ar = 254#8) ∨
        (i = .rmSkipz ∧ s.rm.dr = 0#8 ∧ s.rm.ir = 253#8) ∨
        (i ≠ .rmJump ∧ ¬(i = .rmSkipz ∧ s.rm.dr = 0#8) ∧ s.rm.ir = 254#8)) ∧
      (i = .rmSkipz → s.rm.dr = 0#8 → s.rm.ir = 254#8 → t.rm.ir = 0#8 ∧ t.rm.status = .running) ∧
      (i = .rmJump → s.rm.ar = 255#8 → t.rm.ir = 0#8 ∧ t.rm.ar = s.rm.ir ∧ t.rm.status = .running)

/-- R63: the pass after a `>` fetches from the memory the store left: the stored byte where `AR = IR + 1`, the old byte
elsewhere; with `AR = IR` the store overwrites its own cell and still completes as a store. That the two passes follow one
another is the model's own schedule (log entry 5). -/
def Obligations.NextFetchSeesStore : Prop :=
  ∀ s : State, s.sched = [] → s.active = .rm → s.rm.status = .running → Memory.wf s.rm.mem →
    s.rm.ir ≠ 255#8 → s.rm.ir ≠ 254#8 →
    decodeRm s.cfg.opcodes.rm (Memory.read s.rm.mem s.rm.ir.toNat) = .rmStore →
      ∃ t, step s = .next t ∧
        step t = exec (decodeRm s.cfg.opcodes.rm
          (if s.rm.ar = s.rm.ir + 1#8 then s.rm.dr else Memory.read s.rm.mem (s.rm.ir + 1#8).toNat)) t ∧
        (s.rm.ar = s.rm.ir → Memory.read t.rm.mem s.rm.ir.toNat = s.rm.dr ∧ t.rm.ir = s.rm.ir + 1#8)

/-- R2: a `TM` instruction neither changes `RM` or its port nor depends on them, whatever the outcome. -/
def Obligations.TmIndependentOfRm : Prop :=
  ∀ (i : Instr) (s : State) (r : Rm) (p : Port), i.core = .tm →
    (∀ t, exec i s = .next t → t.rm = s.rm ∧ t.rmPort = s.rmPort ∧
      exec i { s with rm := r, rmPort := p } = .next { t with rm := r, rmPort := p }) ∧
    ∀ f, exec i s = .fault f → exec i { s with rm := r, rmPort := p } = .fault f

/-- R2: an `RM` instruction neither changes `TM` or its port nor depends on them or on the tape length, the overrun rule
and the stack depth, which are parameters of `TM` only. -/
def Obligations.RmIndependentOfTm : Prop :=
  ∀ (i : Instr) (s t : State) (u : Tm) (p : Port) (c : Config), i.core = .rm → exec i s = .next t →
    t.tm = s.tm ∧ t.tmPort = s.tmPort ∧
      exec i { s with tm := u, tmPort := p, cfg := c } = .next { t with tm := u, tmPort := p, cfg := c }

/-- R2, R190: the order in which the two cores make their passes does not matter: adjacent passes of different cores can
be exchanged, from every state and with every outcome. The schedule is the model's own (log entry 5). -/
def Obligations.PassesOfTheCoresCommute : Prop :=
  ∀ (s : State) (rest : List Event),
    runFor 2 { s with sched := .pass .tm :: .pass .rm :: rest } =
      runFor 2 { s with sched := .pass .rm :: .pass .tm :: rest }

/-- R93: a running `TM` whose program holds no opcode byte ends with `DONE` at the end of the program, one pass for each
remaining byte and one for the test, and nothing but `POS` and `STATUS` changes. That the passes are those of the active
core while no event is listed is the model's own choice (log entry 5). -/
def Obligations.TmNoopProgramEnds : Prop :=
  ∀ s : State, s.sched = [] → s.active = .tm → s.tm.status = .running → s.tm.pos ≤ s.tm.prog.length →
    (∀ b ∈ s.tm.prog, b ∉ s.cfg.opcodes.tm.bytes) →
      runFor (s.tm.prog.length - s.tm.pos + 1) s =
        .next { s with tm := { s.tm with pos := s.tm.prog.length, status := .done } }

/-- R135: a running `RM` whose cells 0 to 254 hold no opcode byte halts with `IR = 255`, one pass for each remaining
address and one for the test, and nothing but `IR` and `STATUS` changes. That the passes are those of the active core
while no event is listed is the model's own choice (log entry 5). -/
def Obligations.RmNoopImageHalts : Prop :=
  ∀ s : State, s.sched = [] → s.active = .rm → s.rm.status = .running →
    (∀ a < 255, Memory.read s.rm.mem a ∉ s.cfg.opcodes.rm.bytes) →
      runFor (255 - s.rm.ir.toNat + 1) s = .next { s with rm := { s.rm with ir := 255#8, status := .done } }
end

