-- ==== Sys2Proof/Laws/Decode.lean ====
section
/-! SUPPORT. What the decoders can answer. -/

namespace Sys2Proof

/-- A `TM` byte decodes to a `TM` instruction. -/
theorem decodeTm_core (m : TmOpcodes) (b : Byte) : (decodeTm m b).core = .tm := by
  unfold decodeTm
  repeat' split
  all_goals rfl

/-- An `RM` byte decodes to an `RM` instruction. -/
theorem decodeRm_core (m : RmOpcodes) (b : Byte) : (decodeRm m b).core = .rm := by
  unfold decodeRm
  repeat' split
  all_goals rfl

/-- Only the byte of `[` decodes to `[`. -/
theorem decodeTm_open {m : TmOpcodes} {b : Byte} (h : decodeTm m b = .tmOpen) : b = m.loopOpen := by
  unfold decodeTm at h
  repeat' split at h
  all_goals first | assumption | cases h

/-- A byte that is no opcode of the map decodes to the no-op of that byte. -/
theorem decodeTm_nop {m : TmOpcodes} {b : Byte} (h : b ∉ m.bytes) : decodeTm m b = .tmNop b := by
  simp only [TmOpcodes.bytes, List.mem_cons, List.not_mem_nil, or_false, not_or] at h
  simp [decodeTm, h]

/-- A byte that is no opcode of the map decodes to the no-op of that byte. -/
theorem decodeRm_nop {m : RmOpcodes} {b : Byte} (h : b ∉ m.bytes) : decodeRm m b = .rmNop b := by
  simp only [RmOpcodes.bytes, List.mem_cons, List.not_mem_nil, or_false, not_or] at h
  simp [decodeRm, h]

end Sys2Proof
end

