-- ==== Sys2Proof/Laws/Memory.lean ====
section
/-! SUPPORT. Laws of the sparse memory: a read after a write, and the canonical form kept by every operation. -/

namespace Sys2Proof.Machine

@[simp] theorem Memory.read_nil (a : Nat) : Memory.read [] a = unlistedByte := rfl

@[simp] theorem Memory.wf_nil : Memory.wf [] := ⟨List.Pairwise.nil, fun c hc => absurd hc (by simp)⟩

@[simp] theorem Memory.below_nil (n : Nat) : Memory.below [] n := fun c hc => absurd hc (by simp)

theorem Memory.read_cons (k : Nat) (w : Byte) (m : Memory) (a : Nat) :
    Memory.read ((k, w) :: m) a = if k = a then w else Memory.read m a := rfl

/-- An address below every listed one is not listed. -/
theorem Memory.read_of_lt {m : Memory} {a : Nat} (h : ∀ c ∈ m, a < c.1) : Memory.read m a = unlistedByte := by
  induction m with
  | nil => rfl
  | cons c m ih =>
    obtain ⟨k, w⟩ := c
    have hk : a < k := h (k, w) (by simp)
    rw [Memory.read_cons, if_neg (by omega)]
    exact ih fun c hc => h c (by simp [hc])

theorem Memory.mem_put {m : Memory} {a : Nat} {v : Byte} {c : Host.Cell} (h : c ∈ Memory.put m a v) :
    c = (a, v) ∧ v ≠ unlistedByte ∨ c ∈ m := by
  unfold Memory.put at h
  split at h
  · exact .inr h
  · rcases List.mem_cons.mp h with h | h
    · exact .inl ⟨h, ‹_›⟩
    · exact .inr h

theorem Memory.mem_write {m : Memory} {a : Nat} {v : Byte} {c : Host.Cell} (h : c ∈ Memory.write m a v) :
    c = (a, v) ∧ v ≠ unlistedByte ∨ c ∈ m := by
  induction m with
  | nil => exact Memory.mem_put h
  | cons d m ih =>
    obtain ⟨k, w⟩ := d
    unfold Memory.write at h
    split at h
    · exact Memory.mem_put h
    split at h
    · exact (Memory.mem_put h).imp_right (List.mem_cons_of_mem _)
    · rcases List.mem_cons.mp h with h | h
      · exact .inr (by simp [h])
      · exact (ih h).imp_right (List.mem_cons_of_mem _)

theorem Memory.read_put {m : Memory} {a : Nat} (v : Byte) (b : Nat) (h : ∀ c ∈ m, a < c.1) :
    Memory.read (Memory.put m a v) b = if b = a then v else Memory.read m b := by
  unfold Memory.put
  split
  · split
    · subst_vars; exact Memory.read_of_lt h
    · rfl
  · rw [Memory.read_cons]
    rcases eq_or_ne b a with rfl | hb
    · simp
    · simp [hb, hb.symm]

/-- A read after a write: the written byte at its address, every other byte as before. -/
theorem Memory.read_write {m : Memory} (h : Memory.wf m) (a : Nat) (v : Byte) (b : Nat) :
    Memory.read (Memory.write m a v) b = if b = a then v else Memory.read m b := by
  obtain ⟨hs, -⟩ := h
  induction m with
  | nil => exact Memory.read_put v b (by simp)
  | cons d m ih =>
    obtain ⟨k, w⟩ := d
    obtain ⟨hk, hm⟩ := List.pairwise_cons.mp hs
    unfold Memory.write
    split
    · refine Memory.read_put v b fun c hc => ?_
      rcases List.mem_cons.mp hc with rfl | hc
      · assumption
      · exact lt_trans ‹_› (hk c hc)
    split
    · subst_vars
      rw [Memory.read_put v b fun c hc => hk c hc, Memory.read_cons]
      by_cases hb : b = k
      · simp [hb]
      · simp [hb, Ne.symm hb]
    · rw [Memory.read_cons, ih hm, Memory.read_cons]
      by_cases hb : k = b
      · subst hb; rw [if_pos rfl, if_neg (by omega)]; simp
      · simp [hb]

theorem Memory.put_wf {m : Memory} (h : Memory.wf m) {a : Nat} (v : Byte) (ha : ∀ c ∈ m, a < c.1) :
    Memory.wf (Memory.put m a v) := by
  unfold Memory.put
  split
  · exact h
  · refine ⟨List.pairwise_cons.mpr ⟨fun c hc => ha c hc, h.1⟩, fun c hc => ?_⟩
    rcases List.mem_cons.mp hc with rfl | hc
    · assumption
    · exact h.2 c hc

/-- A write keeps the canonical form. -/
theorem Memory.write_wf {m : Memory} (h : Memory.wf m) (a : Nat) (v : Byte) : Memory.wf (Memory.write m a v) := by
  induction m with
  | nil => exact Memory.put_wf h v (by simp)
  | cons d m ih =>
    obtain ⟨k, w⟩ := d
    obtain ⟨hk, hm⟩ := List.pairwise_cons.mp h.1
    have hwf : Memory.wf m := ⟨hm, fun c hc => h.2 c (by simp [hc])⟩
    unfold Memory.write
    split
    · refine Memory.put_wf h v fun c hc => ?_
      rcases List.mem_cons.mp hc with rfl | hc
      · assumption
      · exact lt_trans ‹_› (hk c hc)
    split
    · subst_vars
      exact Memory.put_wf hwf v fun c hc => hk c hc
    · refine ⟨List.pairwise_cons.mpr ⟨fun c hc => ?_, (ih hwf).1⟩, fun c hc => ?_⟩
      · rcases Memory.mem_write hc with ⟨rfl, -⟩ | hc
        · show k < a; omega
        · exact hk c hc
      · rcases List.mem_cons.mp hc with rfl | hc
        · exact h.2 _ (by simp)
        · exact (ih hwf).2 c hc

/-- A write inside a bound keeps every address inside it. -/
theorem Memory.write_below {m : Memory} {n a : Nat} (h : Memory.below m n) (ha : a < n) (v : Byte) :
    Memory.below (Memory.write m a v) n := by
  intro c hc
  rcases Memory.mem_write hc with ⟨rfl, -⟩ | hc
  · exact ha
  · exact h c hc

/-- A canonical memory is determined by its bytes. -/
theorem Memory.ext_read {m n : Memory} (hm : Memory.wf m) (hn : Memory.wf n)
    (h : ∀ a, Memory.read m a = Memory.read n a) : m = n := by
  induction m generalizing n with
  | nil =>
    cases n with
    | nil => rfl
    | cons d n =>
      obtain ⟨k, w⟩ := d
      have := h k
      rw [Memory.read_cons, if_pos rfl] at this
      exact absurd this.symm (hn.2 (k, w) (by simp))
  | cons c m ih =>
    obtain ⟨j, v⟩ := c
    obtain ⟨hj, hm'⟩ := List.pairwise_cons.mp hm.1
    cases n with
    | nil =>
      have := h j
      rw [Memory.read_cons, if_pos rfl] at this
      exact absurd this (hm.2 (j, v) (by simp))
    | cons d n =>
      obtain ⟨k, w⟩ := d
      obtain ⟨hk, hn'⟩ := List.pairwise_cons.mp hn.1
      have hv : v ≠ unlistedByte := hm.2 (j, v) (by simp)
      have hw : w ≠ unlistedByte := hn.2 (k, w) (by simp)
      have hjk : j = k := by
        rcases Nat.lt_trichotomy j k with hlt | heq | hgt
        · have := h j
          rw [Memory.read_cons, if_pos rfl, Memory.read_cons, if_neg (by omega),
            Memory.read_of_lt fun c hc => lt_trans hlt (hk c hc)] at this
          exact absurd this hv
        · exact heq
        · have := h k
          rw [Memory.read_cons, if_neg (by omega), Memory.read_cons, if_pos rfl,
            Memory.read_of_lt fun c hc => lt_trans hgt (hj c hc)] at this
          exact absurd this.symm hw
      subst hjk
      have hvw : v = w := by simpa [Memory.read_cons] using h j
      subst hvw
      refine congrArg ((j, v) :: ·) (ih ⟨hm', fun c hc => hm.2 c (by simp [hc])⟩
        ⟨hn', fun c hc => hn.2 c (by simp [hc])⟩ fun a => ?_)
      by_cases ha : j = a
      · subst ha
        rw [Memory.read_of_lt fun c hc => hj c hc, Memory.read_of_lt fun c hc => hk c hc]
      · simpa [Memory.read_cons, ha] using h a

theorem Memory.mem_ofBytes {l : List Byte} {a : Nat} {c : Host.Cell} (h : c ∈ Memory.ofBytes a l) :
    a ≤ c.1 ∧ c.1 < a + l.length := by
  induction l generalizing a with
  | nil => simp [Memory.ofBytes] at h
  | cons b l ih =>
    unfold Memory.ofBytes at h
    rcases Memory.mem_put h with ⟨rfl, -⟩ | h
    · simp
    · have := ih h
      simp only [List.length_cons]
      omega

/-- The image memory is canonical. -/
theorem Memory.ofBytes_wf (l : List Byte) (a : Nat) : Memory.wf (Memory.ofBytes a l) := by
  induction l generalizing a with
  | nil => exact ⟨List.Pairwise.nil, by simp [Memory.ofBytes]⟩
  | cons b l ih =>
    exact Memory.put_wf (ih (a + 1)) b fun c hc => Nat.lt_of_succ_le (Memory.mem_ofBytes hc).1

/-- The image memory holds the bytes it was made from. -/
theorem Memory.read_ofBytes (l : List Byte) (a i : Nat) :
    Memory.read (Memory.ofBytes a l) (a + i) = (l[i]?).getD unlistedByte := by
  induction l generalizing a i with
  | nil => simp [Memory.ofBytes]
  | cons b l ih =>
    unfold Memory.ofBytes
    rw [Memory.read_put b (a + i) fun c hc => Nat.lt_of_succ_le (Memory.mem_ofBytes hc).1]
    cases i with
    | zero => simp
    | succ i =>
      rw [if_neg (by omega), show a + (i + 1) = a + 1 + i by omega, ih]
      simp

end Sys2Proof.Machine
end

