-- ==== Sys2Proof/Laws/State.lean ====
section
/-! SUPPORT. One lemma per field per update, each true by unfolding: what an update sets and what it leaves alone. -/

namespace Sys2Proof.Machine

@[simp] theorem Tm.advance_prog (t : Tm) : t.advance.prog = t.prog := rfl
@[simp] theorem Tm.advance_pos (t : Tm) : t.advance.pos = t.pos + 1 := rfl
@[simp] theorem Tm.advance_tape (t : Tm) : t.advance.tape = t.tape := rfl
@[simp] theorem Tm.advance_cur (t : Tm) : t.advance.cur = t.cur := rfl
@[simp] theorem Tm.advance_js (t : Tm) : t.advance.js = t.js := rfl
@[simp] theorem Tm.advance_status (t : Tm) : t.advance.status = t.status := rfl

@[simp] theorem Tm.jumpTo_prog (t : Tm) (p : Nat) : (t.jumpTo p).prog = t.prog := rfl
@[simp] theorem Tm.jumpTo_pos (t : Tm) (p : Nat) : (t.jumpTo p).pos = p := rfl
@[simp] theorem Tm.jumpTo_tape (t : Tm) (p : Nat) : (t.jumpTo p).tape = t.tape := rfl
@[simp] theorem Tm.jumpTo_cur (t : Tm) (p : Nat) : (t.jumpTo p).cur = t.cur := rfl
@[simp] theorem Tm.jumpTo_js (t : Tm) (p : Nat) : (t.jumpTo p).js = t.js := rfl
@[simp] theorem Tm.jumpTo_status (t : Tm) (p : Nat) : (t.jumpTo p).status = t.status := rfl

@[simp] theorem Tm.moveTo_prog (t : Tm) (c : Nat) : (t.moveTo c).prog = t.prog := rfl
@[simp] theorem Tm.moveTo_pos (t : Tm) (c : Nat) : (t.moveTo c).pos = t.pos := rfl
@[simp] theorem Tm.moveTo_tape (t : Tm) (c : Nat) : (t.moveTo c).tape = t.tape := rfl
@[simp] theorem Tm.moveTo_cur (t : Tm) (c : Nat) : (t.moveTo c).cur = c := rfl
@[simp] theorem Tm.moveTo_js (t : Tm) (c : Nat) : (t.moveTo c).js = t.js := rfl
@[simp] theorem Tm.moveTo_status (t : Tm) (c : Nat) : (t.moveTo c).status = t.status := rfl

@[simp] theorem Tm.setCell_prog (t : Tm) (v : Byte) : (t.setCell v).prog = t.prog := rfl
@[simp] theorem Tm.setCell_pos (t : Tm) (v : Byte) : (t.setCell v).pos = t.pos := rfl
@[simp] theorem Tm.setCell_tape (t : Tm) (v : Byte) : (t.setCell v).tape = Memory.write t.tape t.cur v := rfl
@[simp] theorem Tm.setCell_cur (t : Tm) (v : Byte) : (t.setCell v).cur = t.cur := rfl
@[simp] theorem Tm.setCell_js (t : Tm) (v : Byte) : (t.setCell v).js = t.js := rfl
@[simp] theorem Tm.setCell_status (t : Tm) (v : Byte) : (t.setCell v).status = t.status := rfl

@[simp] theorem Tm.setJs_prog (t : Tm) (l : List Nat) : (t.setJs l).prog = t.prog := rfl
@[simp] theorem Tm.setJs_pos (t : Tm) (l : List Nat) : (t.setJs l).pos = t.pos := rfl
@[simp] theorem Tm.setJs_tape (t : Tm) (l : List Nat) : (t.setJs l).tape = t.tape := rfl
@[simp] theorem Tm.setJs_cur (t : Tm) (l : List Nat) : (t.setJs l).cur = t.cur := rfl
@[simp] theorem Tm.setJs_js (t : Tm) (l : List Nat) : (t.setJs l).js = l := rfl
@[simp] theorem Tm.setJs_status (t : Tm) (l : List Nat) : (t.setJs l).status = t.status := rfl

@[simp] theorem Tm.setStatus_prog (t : Tm) (v : Status) : (t.setStatus v).prog = t.prog := rfl
@[simp] theorem Tm.setStatus_pos (t : Tm) (v : Status) : (t.setStatus v).pos = t.pos := rfl
@[simp] theorem Tm.setStatus_tape (t : Tm) (v : Status) : (t.setStatus v).tape = t.tape := rfl
@[simp] theorem Tm.setStatus_cur (t : Tm) (v : Status) : (t.setStatus v).cur = t.cur := rfl
@[simp] theorem Tm.setStatus_js (t : Tm) (v : Status) : (t.setStatus v).js = t.js := rfl
@[simp] theorem Tm.setStatus_status (t : Tm) (v : Status) : (t.setStatus v).status = v := rfl

@[simp] theorem Rm.advance_mem (r : Rm) : r.advance.mem = r.mem := rfl
@[simp] theorem Rm.advance_dr (r : Rm) : r.advance.dr = r.dr := rfl
@[simp] theorem Rm.advance_ar (r : Rm) : r.advance.ar = r.ar := rfl
@[simp] theorem Rm.advance_ir (r : Rm) : r.advance.ir = r.ir + 1#8 := rfl
@[simp] theorem Rm.advance_sr (r : Rm) : r.advance.sr = r.sr := rfl
@[simp] theorem Rm.advance_status (r : Rm) : r.advance.status = r.status := rfl

@[simp] theorem Rm.setDr_mem (r : Rm) (v : Byte) : (r.setDr v).mem = r.mem := rfl
@[simp] theorem Rm.setDr_dr (r : Rm) (v : Byte) : (r.setDr v).dr = v := rfl
@[simp] theorem Rm.setDr_ar (r : Rm) (v : Byte) : (r.setDr v).ar = r.ar := rfl
@[simp] theorem Rm.setDr_ir (r : Rm) (v : Byte) : (r.setDr v).ir = r.ir := rfl
@[simp] theorem Rm.setDr_sr (r : Rm) (v : Byte) : (r.setDr v).sr = r.sr := rfl
@[simp] theorem Rm.setDr_status (r : Rm) (v : Byte) : (r.setDr v).status = r.status := rfl

@[simp] theorem Rm.setAr_mem (r : Rm) (v : Byte) : (r.setAr v).mem = r.mem := rfl
@[simp] theorem Rm.setAr_dr (r : Rm) (v : Byte) : (r.setAr v).dr = r.dr := rfl
@[simp] theorem Rm.setAr_ar (r : Rm) (v : Byte) : (r.setAr v).ar = v := rfl
@[simp] theorem Rm.setAr_ir (r : Rm) (v : Byte) : (r.setAr v).ir = r.ir := rfl
@[simp] theorem Rm.setAr_sr (r : Rm) (v : Byte) : (r.setAr v).sr = r.sr := rfl
@[simp] theorem Rm.setAr_status (r : Rm) (v : Byte) : (r.setAr v).status = r.status := rfl

@[simp] theorem Rm.setIr_mem (r : Rm) (v : Byte) : (r.setIr v).mem = r.mem := rfl
@[simp] theorem Rm.setIr_dr (r : Rm) (v : Byte) : (r.setIr v).dr = r.dr := rfl
@[simp] theorem Rm.setIr_ar (r : Rm) (v : Byte) : (r.setIr v).ar = r.ar := rfl
@[simp] theorem Rm.setIr_ir (r : Rm) (v : Byte) : (r.setIr v).ir = v := rfl
@[simp] theorem Rm.setIr_sr (r : Rm) (v : Byte) : (r.setIr v).sr = r.sr := rfl
@[simp] theorem Rm.setIr_status (r : Rm) (v : Byte) : (r.setIr v).status = r.status := rfl

@[simp] theorem Rm.setSr_mem (r : Rm) (v : Byte) : (r.setSr v).mem = r.mem := rfl
@[simp] theorem Rm.setSr_dr (r : Rm) (v : Byte) : (r.setSr v).dr = r.dr := rfl
@[simp] theorem Rm.setSr_ar (r : Rm) (v : Byte) : (r.setSr v).ar = r.ar := rfl
@[simp] theorem Rm.setSr_ir (r : Rm) (v : Byte) : (r.setSr v).ir = r.ir := rfl
@[simp] theorem Rm.setSr_sr (r : Rm) (v : Byte) : (r.setSr v).sr = v := rfl
@[simp] theorem Rm.setSr_status (r : Rm) (v : Byte) : (r.setSr v).status = r.status := rfl

@[simp] theorem Rm.setMemAtAr_mem (r : Rm) (v : Byte) : (r.setMemAtAr v).mem = Memory.write r.mem r.ar.toNat v := rfl
@[simp] theorem Rm.setMemAtAr_dr (r : Rm) (v : Byte) : (r.setMemAtAr v).dr = r.dr := rfl
@[simp] theorem Rm.setMemAtAr_ar (r : Rm) (v : Byte) : (r.setMemAtAr v).ar = r.ar := rfl
@[simp] theorem Rm.setMemAtAr_ir (r : Rm) (v : Byte) : (r.setMemAtAr v).ir = r.ir := rfl
@[simp] theorem Rm.setMemAtAr_sr (r : Rm) (v : Byte) : (r.setMemAtAr v).sr = r.sr := rfl
@[simp] theorem Rm.setMemAtAr_status (r : Rm) (v : Byte) : (r.setMemAtAr v).status = r.status := rfl

@[simp] theorem Rm.setStatus_mem (r : Rm) (v : Status) : (r.setStatus v).mem = r.mem := rfl
@[simp] theorem Rm.setStatus_dr (r : Rm) (v : Status) : (r.setStatus v).dr = r.dr := rfl
@[simp] theorem Rm.setStatus_ar (r : Rm) (v : Status) : (r.setStatus v).ar = r.ar := rfl
@[simp] theorem Rm.setStatus_ir (r : Rm) (v : Status) : (r.setStatus v).ir = r.ir := rfl
@[simp] theorem Rm.setStatus_sr (r : Rm) (v : Status) : (r.setStatus v).sr = r.sr := rfl
@[simp] theorem Rm.setStatus_status (r : Rm) (v : Status) : (r.setStatus v).status = v := rfl

@[simp] theorem State.setTm_cfg (s : State) (t : Tm) : (s.setTm t).cfg = s.cfg := rfl
@[simp] theorem State.setTm_tm (s : State) (t : Tm) : (s.setTm t).tm = t := rfl
@[simp] theorem State.setTm_rm (s : State) (t : Tm) : (s.setTm t).rm = s.rm := rfl
@[simp] theorem State.setTm_tmPort (s : State) (t : Tm) : (s.setTm t).tmPort = s.tmPort := rfl
@[simp] theorem State.setTm_rmPort (s : State) (t : Tm) : (s.setTm t).rmPort = s.rmPort := rfl
@[simp] theorem State.setTm_sched (s : State) (t : Tm) : (s.setTm t).sched = s.sched := rfl
@[simp] theorem State.setTm_active (s : State) (t : Tm) : (s.setTm t).active = s.active := rfl

@[simp] theorem State.setRm_cfg (s : State) (r : Rm) : (s.setRm r).cfg = s.cfg := rfl
@[simp] theorem State.setRm_tm (s : State) (r : Rm) : (s.setRm r).tm = s.tm := rfl
@[simp] theorem State.setRm_rm (s : State) (r : Rm) : (s.setRm r).rm = r := rfl
@[simp] theorem State.setRm_tmPort (s : State) (r : Rm) : (s.setRm r).tmPort = s.tmPort := rfl
@[simp] theorem State.setRm_rmPort (s : State) (r : Rm) : (s.setRm r).rmPort = s.rmPort := rfl
@[simp] theorem State.setRm_sched (s : State) (r : Rm) : (s.setRm r).sched = s.sched := rfl
@[simp] theorem State.setRm_active (s : State) (r : Rm) : (s.setRm r).active = s.active := rfl

@[simp] theorem State.setTmPort_cfg (s : State) (p : Port) : (s.setTmPort p).cfg = s.cfg := rfl
@[simp] theorem State.setTmPort_tm (s : State) (p : Port) : (s.setTmPort p).tm = s.tm := rfl
@[simp] theorem State.setTmPort_rm (s : State) (p : Port) : (s.setTmPort p).rm = s.rm := rfl
@[simp] theorem State.setTmPort_tmPort (s : State) (p : Port) : (s.setTmPort p).tmPort = p := rfl
@[simp] theorem State.setTmPort_rmPort (s : State) (p : Port) : (s.setTmPort p).rmPort = s.rmPort := rfl
@[simp] theorem State.setTmPort_sched (s : State) (p : Port) : (s.setTmPort p).sched = s.sched := rfl
@[simp] theorem State.setTmPort_active (s : State) (p : Port) : (s.setTmPort p).active = s.active := rfl

@[simp] theorem State.setRmPort_cfg (s : State) (p : Port) : (s.setRmPort p).cfg = s.cfg := rfl
@[simp] theorem State.setRmPort_tm (s : State) (p : Port) : (s.setRmPort p).tm = s.tm := rfl
@[simp] theorem State.setRmPort_rm (s : State) (p : Port) : (s.setRmPort p).rm = s.rm := rfl
@[simp] theorem State.setRmPort_tmPort (s : State) (p : Port) : (s.setRmPort p).tmPort = s.tmPort := rfl
@[simp] theorem State.setRmPort_rmPort (s : State) (p : Port) : (s.setRmPort p).rmPort = p := rfl
@[simp] theorem State.setRmPort_sched (s : State) (p : Port) : (s.setRmPort p).sched = s.sched := rfl
@[simp] theorem State.setRmPort_active (s : State) (p : Port) : (s.setRmPort p).active = s.active := rfl

@[simp] theorem State.setSched_cfg (s : State) (l : List Event) : (s.setSched l).cfg = s.cfg := rfl
@[simp] theorem State.setSched_tm (s : State) (l : List Event) : (s.setSched l).tm = s.tm := rfl
@[simp] theorem State.setSched_rm (s : State) (l : List Event) : (s.setSched l).rm = s.rm := rfl
@[simp] theorem State.setSched_tmPort (s : State) (l : List Event) : (s.setSched l).tmPort = s.tmPort := rfl
@[simp] theorem State.setSched_rmPort (s : State) (l : List Event) : (s.setSched l).rmPort = s.rmPort := rfl
@[simp] theorem State.setSched_sched (s : State) (l : List Event) : (s.setSched l).sched = l := rfl
@[simp] theorem State.setSched_active (s : State) (l : List Event) : (s.setSched l).active = s.active := rfl

@[simp] theorem State.raise_cfg (s : State) (k : FailKind) : (s.raise k).cfg = s.cfg := rfl
@[simp] theorem State.raise_tm (s : State) (k : FailKind) : (s.raise k).tm = s.tm.setStatus (.failed k) := rfl
@[simp] theorem State.raise_rm (s : State) (k : FailKind) : (s.raise k).rm = s.rm := rfl
@[simp] theorem State.raise_tmPort (s : State) (k : FailKind) : (s.raise k).tmPort = s.tmPort := rfl
@[simp] theorem State.raise_rmPort (s : State) (k : FailKind) : (s.raise k).rmPort = s.rmPort := rfl
@[simp] theorem State.raise_sched (s : State) (k : FailKind) : (s.raise k).sched = s.sched := rfl
@[simp] theorem State.raise_active (s : State) (k : FailKind) : (s.raise k).active = s.active := rfl

end Sys2Proof.Machine
end

