-- ==== Sys2Proof/Laws/Ops.lean ====
section
/-! SUPPORT. What each shared operation can do, said once: its equations, and what a next state of it can be. -/

namespace Sys2Proof.Machine

variable {s t : State} {k : StepResult}

/-! ### The guard of a tape access -/

theorem State.atCell_of_lt (h : s.tm.cur < s.cfg.tapeLen) : s.atCell k = k := if_pos h

theorem State.atCell_of_eq (h : s.tm.cur = s.cfg.tapeLen) : s.atCell k = .next (s.raise .tapeIndex) := by
  unfold State.atCell
  rw [if_neg (by omega), if_pos h]

theorem State.atCell_of_gt (h : s.cfg.tapeLen < s.tm.cur) : s.atCell k = .fault .cursorRange := by
  unfold State.atCell
  rw [if_neg (by omega), if_neg (by omega)]

/-- A guarded access with a next state either went on at a cell or raised at the phantom position. -/
theorem State.atCell_next (h : s.atCell k = .next t) :
    s.tm.cur < s.cfg.tapeLen ∧ k = .next t ∨ s.tm.cur = s.cfg.tapeLen ∧ t = s.raise .tapeIndex := by
  rcases Nat.lt_trichotomy s.tm.cur s.cfg.tapeLen with hl | he | hg
  · exact .inl ⟨hl, by rwa [State.atCell_of_lt hl] at h⟩
  · rw [State.atCell_of_eq he] at h
    injection h with h
    exact .inr ⟨he, h.symm⟩
  · rw [State.atCell_of_gt hg] at h
    cases h

/-! ### Stores -/

/-- After `Tape[CUR] <- v`, the cell at the cursor reads `v` and every other as before. -/
theorem Tm.read_setCell {u : Tm} (h : Memory.wf u.tape) (v : Byte) (a : Nat) :
    Memory.read (u.setCell v).tape a = if a = u.cur then v else Memory.read u.tape a :=
  Memory.read_write h u.cur v a

/-- After `Mem[AR] <- v`, the cell at `AR` reads `v` and every other as before. -/
theorem Rm.read_setMemAtAr {r : Rm} (h : Memory.wf r.mem) (v : Byte) (a : Nat) :
    Memory.read (r.setMemAtAr v).mem a = if a = r.ar.toNat then v else Memory.read r.mem a :=
  Memory.read_write h r.ar.toNat v a

/-! ### Completing a pass -/

@[simp] theorem State.tmDone_eq (s : State) (u : Tm) : s.tmDone u = .next (s.setTm u.advance) := rfl

@[simp] theorem State.rmDone_eq (s : State) (r : Rm) : s.rmDone r = .next (s.setRm r.advance) := rfl

/-! ### Port transactions -/

/-- A read transaction changes nothing of the port but the answers left and the log, which gains it. -/
theorem Port.read_log {p q : Port} {a : ReadAnswer} (h : p.read = some (a, q)) :
    q.log = p.log ++ [.read a] ∧ q.writes = p.writes ∧ q.writesThen = p.writesThen ∧ q.readsThen = p.readsThen := by
  unfold Port.read at h
  split at h
  · simp only [Option.some.injEq, Prod.mk.injEq] at h
    obtain ⟨rfl, rfl⟩ := h
    exact ⟨rfl, rfl, rfl, rfl⟩
  · split at h
    · simp only [Option.some.injEq, Prod.mk.injEq] at h
      obtain ⟨rfl, rfl⟩ := h
      exact ⟨rfl, rfl, rfl, rfl⟩
    · cases h

/-- A write transaction changes nothing of the port but the answers left and the log, which gains it. -/
theorem Port.write_log {p q : Port} {b : Byte} {a : WriteAnswer} (h : p.write b = some (a, q)) :
    q.log = p.log ++ [.write b a] ∧ q.reads = p.reads ∧ q.readsThen = p.readsThen ∧ q.writesThen = p.writesThen := by
  unfold Port.write at h
  split at h
  · simp only [Option.some.injEq, Prod.mk.injEq] at h
    obtain ⟨rfl, rfl⟩ := h
    exact ⟨rfl, rfl, rfl, rfl⟩
  · split at h
    · simp only [Option.some.injEq, Prod.mk.injEq] at h
      obtain ⟨rfl, rfl⟩ := h
      exact ⟨rfl, rfl, rfl, rfl⟩
    · cases h

theorem State.tmIoRead_none {k : State → ReadAnswer → StepResult} (h : s.tmPort.read = none) :
    s.tmIoRead k = .next s := by
  simp only [State.tmIoRead, h]

theorem State.tmIoRead_some {k : State → ReadAnswer → StepResult} {a : ReadAnswer} {p : Port}
    (h : s.tmPort.read = some (a, p)) : s.tmIoRead k = k (s.setTmPort p) a := by
  simp only [State.tmIoRead, h]

theorem State.tmIoWrite_none {k : State → WriteAnswer → StepResult} {b : Byte} (h : s.tmPort.write b = none) :
    s.tmIoWrite b k = .next s := by
  simp only [State.tmIoWrite, h]

theorem State.tmIoWrite_some {k : State → WriteAnswer → StepResult} {b : Byte} {a : WriteAnswer} {p : Port}
    (h : s.tmPort.write b = some (a, p)) : s.tmIoWrite b k = k (s.setTmPort p) a := by
  simp only [State.tmIoWrite, h]

theorem State.rmIoRead_none {k : State → ReadAnswer → StepResult} (h : s.rmPort.read = none) :
    s.rmIoRead k = .next s := by
  simp only [State.rmIoRead, h]

theorem State.rmIoRead_some {k : State → ReadAnswer → StepResult} {a : ReadAnswer} {p : Port}
    (h : s.rmPort.read = some (a, p)) : s.rmIoRead k = k (s.setRmPort p) a := by
  simp only [State.rmIoRead, h]

theorem State.rmIoWrite_none {k : State → WriteAnswer → StepResult} {b : Byte} (h : s.rmPort.write b = none) :
    s.rmIoWrite b k = .next s := by
  simp only [State.rmIoWrite, h]

theorem State.rmIoWrite_some {k : State → WriteAnswer → StepResult} {b : Byte} {a : WriteAnswer} {p : Port}
    (h : s.rmPort.write b = some (a, p)) : s.rmIoWrite b k = k (s.setRmPort p) a := by
  simp only [State.rmIoWrite, h]

/-! ### Cursor moves and the jump stack -/

theorem cursorRight_of_lt {cfg : Config} {c : Nat} (h : c < cfg.tapeLen) : cursorRight cfg c = some (c + 1) := by
  unfold cursorRight
  rw [if_neg (by omega)]

theorem cursorRight_wrap {cfg : Config} {c : Nat} (h : cfg.tapeLen ≤ c) (hw : cfg.fwdOverrun = .wrapZero) :
    cursorRight cfg c = some 0 := by
  unfold cursorRight
  rw [if_pos (by omega), hw]

theorem cursorRight_fault {cfg : Config} {c : Nat} (h : cfg.tapeLen ≤ c) (hf : cfg.fwdOverrun = .fault) :
    cursorRight cfg c = none := by
  unfold cursorRight
  rw [if_pos (by omega), hf]

/-- `>` leaves the cursor within `0 .. TAPE_LEN`. -/
theorem cursorRight_le {cfg : Config} {c d : Nat} (h : cursorRight cfg c = some d) : d ≤ cfg.tapeLen := by
  unfold cursorRight at h
  split at h
  · split at h
    · injection h with h; omega
    · cases h
  · injection h with h; omega

/-- `<` keeps the cursor within `0 .. TAPE_LEN`. -/
theorem cursorLeft_le {cfg : Config} {c : Nat} (h : c ≤ cfg.tapeLen) : cursorLeft cfg c ≤ cfg.tapeLen := by
  unfold cursorLeft
  split <;> omega

theorem jsFull_iff {d : Option Nat} {n : Nat} : jsFull d n = true ↔ ∃ m, d = some m ∧ m ≤ n := by
  cases d <;> simp [jsFull]

@[simp] theorem loopRepeats_iff {v : Byte} : loopRepeats v = true ↔ v ≠ 0#8 := by simp [loopRepeats]

@[simp] theorem skipTaken_iff {v : Byte} : skipTaken v = true ↔ v = 0#8 := by simp [skipTaken]

end Sys2Proof.Machine
end

