-- ==== Sys2Proof/Laws/Exec.lean ====
section
/-! SUPPORT. What each instruction can do, said once: if `exec i s` answers `next t`, then one of the cases of
`Effect i s t` holds. Later proofs cite `exec_next` and do not unfold a meaning. -/

namespace Sys2Proof.Machine

/-- A guarded tape access: at a cell, `P` holds; at the phantom position, the instruction raised. -/
def CellEffect (s t : State) (P : Prop) : Prop :=
  (s.tm.cur < s.cfg.tapeLen ∧ P) ∨ (s.tm.cur = s.cfg.tapeLen ∧ t = s.raise .tapeIndex)

/-- The cases of a next state `t` of the instruction `i` in the state `s`, guards included. -/
def Effect (i : Instr) (s t : State) : Prop :=
  match i with
  | .tmRight =>
    (∃ c, cursorRight s.cfg s.tm.cur = some c ∧ t = s.setTm (s.tm.moveTo c).advance) ∨
      (cursorRight s.cfg s.tm.cur = none ∧ t = s.raise .cursorOverrun)
  | .tmLeft => t = s.setTm (s.tm.moveTo (cursorLeft s.cfg s.tm.cur)).advance
  | .tmInc => CellEffect s t (t = s.setTm (s.tm.setCell (s.cell + 1#8)).advance)
  | .tmDec => CellEffect s t (t = s.setTm (s.tm.setCell (s.cell - 1#8)).advance)
  | .tmIn => CellEffect s t
    ((s.tmPort.read = none ∧ t = s) ∨
      (∃ b p, s.tmPort.read = some (.ok b, p) ∧ t = (s.setTmPort p).setTm (s.tm.setCell b).advance) ∨
      ∃ p, s.tmPort.read = some (.fail, p) ∧ t = (s.setTmPort p).raise .ioRead)
  | .tmOut => CellEffect s t
    ((s.tmPort.write s.cell = none ∧ t = s) ∨
      (∃ p, s.tmPort.write s.cell = some (.ok, p) ∧ t = (s.setTmPort p).setTm s.tm.advance) ∨
      ∃ p, s.tmPort.write s.cell = some (.fail, p) ∧ t = (s.setTmPort p).raise .ioWrite)
  | .tmOpen =>
    (jsFull s.cfg.jsDepth s.tm.js.length = true ∧ t = s.raise .jumpStackOverflow) ∨
      (jsFull s.cfg.jsDepth s.tm.js.length = false ∧ t = s.setTm (s.tm.setJs (s.tm.pos :: s.tm.js)).advance)
  | .tmClose =>
    (s.tm.js = [] ∧ t = s.raise .stackUnderflow) ∨
      ∃ q rest, s.tm.js = q :: rest ∧ CellEffect s t
        ((s.cell ≠ 0#8 ∧ t = s.setTm (s.tm.jumpTo q).advance) ∨
          (s.cell = 0#8 ∧ t = s.setTm (s.tm.setJs rest).advance))
  | .tmNop _ => t = s.setTm s.tm.advance
  | .rmLoad => t = s.setRm (s.rm.setDr s.memAtAr).advance
  | .rmStore => t = s.setRm (s.rm.setMemAtAr s.rm.dr).advance
  | .rmPoint => t = s.setRm ((s.rm.setDr s.rm.ar).setAr s.rm.dr).advance
  | .rmJump => t = s.setRm ((s.rm.setAr s.rm.ir).setIr s.rm.ar).advance
  | .rmSwitch => t = s.setRm ((s.rm.setDr s.rm.sr).setSr s.rm.dr).advance
  | .rmAdd => t = s.setRm (s.rm.setDr (s.memAtAr + s.rm.dr)).advance
  | .rmSub => t = s.setRm (s.rm.setDr (s.memAtAr - s.rm.dr)).advance
  | .rmInput =>
    (s.rmPort.read = none ∧ t = s) ∨
      ∃ a p, s.rmPort.read = some (a, p) ∧ t = (s.setRmPort p).setRm (s.rm.setDr a.byteOrZero).advance
  | .rmOutput =>
    (s.rmPort.write s.rm.dr = none ∧ t = s) ∨
      ∃ a p, s.rmPort.write s.rm.dr = some (a, p) ∧ t = (s.setRmPort p).setRm s.rm.advance
  | .rmSkipz =>
    (s.rm.dr = 0#8 ∧ t = s.setRm (s.rm.setIr (s.rm.ir + 1#8)).advance) ∨
      (s.rm.dr ≠ 0#8 ∧ t = s.setRm s.rm.advance)
  | .rmNop _ => t = s.setRm s.rm.advance

variable {s t : State}

theorem execTmRight_next (h : execTmRight s = .next t) : Effect .tmRight s t := by
  unfold execTmRight at h
  split at h <;> injection h with h
  · exact .inl ⟨_, ‹_›, h.symm⟩
  · exact .inr ⟨‹_›, h.symm⟩

/-- An instruction that only replaces the cell at the cursor. -/
theorem atCell_setCell_next {v : Byte} (h : s.atCell (s.tmDone (s.tm.setCell v)) = .next t) :
    CellEffect s t (t = s.setTm (s.tm.setCell v).advance) :=
  (State.atCell_next h).imp_left fun ⟨hc, h⟩ => ⟨hc, by injection h with h; exact h.symm⟩

theorem execTmIn_next (h : execTmIn s = .next t) : Effect .tmIn s t := by
  refine (State.atCell_next h).imp_left fun ⟨hc, h⟩ => ⟨hc, ?_⟩
  unfold State.tmIoRead at h
  split at h
  · injection h with h
    exact .inl ⟨‹_›, h.symm⟩
  · rename_i a p hp
    cases a <;> injection h with h
    · exact .inr (.inl ⟨_, _, hp, h.symm⟩)
    · exact .inr (.inr ⟨_, hp, h.symm⟩)

theorem execTmOut_next (h : execTmOut s = .next t) : Effect .tmOut s t := by
  refine (State.atCell_next h).imp_left fun ⟨hc, h⟩ => ⟨hc, ?_⟩
  unfold State.tmIoWrite at h
  split at h
  · injection h with h
    exact .inl ⟨‹_›, h.symm⟩
  · rename_i a p hp
    cases a <;> injection h with h
    · exact .inr (.inl ⟨_, hp, h.symm⟩)
    · exact .inr (.inr ⟨_, hp, h.symm⟩)

theorem execTmOpen_next (h : execTmOpen s = .next t) : Effect .tmOpen s t := by
  unfold execTmOpen at h
  split at h <;> rename_i hf <;> injection h with h
  · exact .inl ⟨hf, h.symm⟩
  · exact .inr ⟨by simpa using hf, h.symm⟩

theorem execTmClose_next (h : execTmClose s = .next t) : Effect .tmClose s t := by
  unfold execTmClose at h
  split at h
  · injection h with h
    exact .inl ⟨‹_›, h.symm⟩
  · rename_i q rest hj
    refine .inr ⟨q, rest, hj, (State.atCell_next h).imp_left fun ⟨hc, h⟩ => ⟨hc, ?_⟩⟩
    split at h <;> rename_i hv <;> injection h with h
    · exact .inl ⟨loopRepeats_iff.mp hv, by rw [← h, ← hj]; rfl⟩
    · exact .inr ⟨by simpa using hv, h.symm⟩

theorem execRmInput_next (h : execRmInput s = .next t) : Effect .rmInput s t := by
  unfold execRmInput State.rmIoRead at h
  split at h <;> injection h with h
  · exact .inl ⟨‹_›, h.symm⟩
  · exact .inr ⟨_, _, ‹_›, h.symm⟩

theorem execRmOutput_next (h : execRmOutput s = .next t) : Effect .rmOutput s t := by
  unfold execRmOutput State.rmIoWrite at h
  split at h <;> injection h with h
  · exact .inl ⟨‹_›, h.symm⟩
  · exact .inr ⟨_, _, ‹_›, h.symm⟩

theorem execRmSkipz_next (h : execRmSkipz s = .next t) : Effect .rmSkipz s t := by
  unfold execRmSkipz at h
  split at h <;> rename_i hd <;> injection h with h
  · exact .inl ⟨skipTaken_iff.mp hd, h.symm⟩
  · exact .inr ⟨by simpa using hd, h.symm⟩

/-- What a next state of any instruction is. -/
theorem exec_next {i : Instr} (h : exec i s = .next t) : Effect i s t := by
  cases i with
  | tmRight => exact execTmRight_next h
  | tmInc => exact atCell_setCell_next h
  | tmDec => exact atCell_setCell_next h
  | tmIn => exact execTmIn_next h
  | tmOut => exact execTmOut_next h
  | tmOpen => exact execTmOpen_next h
  | tmClose => exact execTmClose_next h
  | rmInput => exact execRmInput_next h
  | rmOutput => exact execRmOutput_next h
  | rmSkipz => exact execRmSkipz_next h
  | _ => injection h with h; exact h.symm

end Sys2Proof.Machine
end

