-- ==== Sys2Proof/Laws/PerInstr.lean ====
section
/-! SUPPORT. Per-instruction laws. `OneByte` (spec/30_encoding.md R70, R78): whatever the opcode map, an instruction
is one byte, and its core reads that byte and hands back what follows it. -/

namespace Sys2Proof.Laws.OneByte

/-- The encoding of `i` is one byte, and decoding it consumes exactly that byte. -/
def Statement (i : Instr) : Prop :=
  ∀ (m : OpcodeMap) (rest : List Byte), (encode m i).length = 1 ∧
    decode i.core m (encode m i ++ rest) = .ok (decodeByte i.core m (encodeByte m i), rest)

theorem tmRight : Statement .tmRight := fun _ _ => ⟨rfl, rfl⟩
theorem tmLeft : Statement .tmLeft := fun _ _ => ⟨rfl, rfl⟩
theorem tmInc : Statement .tmInc := fun _ _ => ⟨rfl, rfl⟩
theorem tmDec : Statement .tmDec := fun _ _ => ⟨rfl, rfl⟩
theorem tmIn : Statement .tmIn := fun _ _ => ⟨rfl, rfl⟩
theorem tmOut : Statement .tmOut := fun _ _ => ⟨rfl, rfl⟩
theorem tmOpen : Statement .tmOpen := fun _ _ => ⟨rfl, rfl⟩
theorem tmClose : Statement .tmClose := fun _ _ => ⟨rfl, rfl⟩
theorem tmNop (x : Byte) : Statement (.tmNop x) := fun _ _ => ⟨rfl, rfl⟩
theorem rmLoad : Statement .rmLoad := fun _ _ => ⟨rfl, rfl⟩
theorem rmStore : Statement .rmStore := fun _ _ => ⟨rfl, rfl⟩
theorem rmPoint : Statement .rmPoint := fun _ _ => ⟨rfl, rfl⟩
theorem rmJump : Statement .rmJump := fun _ _ => ⟨rfl, rfl⟩
theorem rmSwitch : Statement .rmSwitch := fun _ _ => ⟨rfl, rfl⟩
theorem rmAdd : Statement .rmAdd := fun _ _ => ⟨rfl, rfl⟩
theorem rmSub : Statement .rmSub := fun _ _ => ⟨rfl, rfl⟩
theorem rmInput : Statement .rmInput := fun _ _ => ⟨rfl, rfl⟩
theorem rmOutput : Statement .rmOutput := fun _ _ => ⟨rfl, rfl⟩
theorem rmSkipz : Statement .rmSkipz := fun _ _ => ⟨rfl, rfl⟩
theorem rmNop (x : Byte) : Statement (.rmNop x) := fun _ _ => ⟨rfl, rfl⟩

end Sys2Proof.Laws.OneByte
end

