-- ==== Sys2Proof/Laws/Step.lean ====
section
/-! SUPPORT. The step, opened once: which event it performs, what a pass of each core does, and how several steps
are cut up. -/

namespace Sys2Proof.Machine

@[simp] theorem Status.isFailed_running : Status.running.isFailed = false := rfl
@[simp] theorem Status.isFailed_done : Status.done.isFailed = false := rfl
@[simp] theorem Status.isFailed_failed (k : FailKind) : (Status.failed k).isFailed = true := rfl

theorem step_of_sched_nil {s : State} (h : s.sched = []) : step s = pass s.active s := by
  simp only [step, advance, h]

theorem step_of_sched_cons {s : State} {e : Event} {l : List Event} (h : s.sched = e :: l) :
    step s = perform e (s.setSched l) := by
  simp only [step, advance, h]

theorem tmPass_exec {s : State} {b : Byte} (hr : s.tm.status = .running) (hb : s.tm.prog[s.tm.pos]? = some b) :
    tmPass s = exec (decodeTm s.cfg.opcodes.tm b) s := by
  simp only [tmPass, hr, Tm.fetch, hb, if_true]

theorem tmPass_end {s : State} (hr : s.tm.status = .running) (hb : s.tm.prog[s.tm.pos]? = none) :
    tmPass s = .next (s.setTm (s.tm.setStatus .done)) := by
  simp only [tmPass, hr, Tm.fetch, hb, if_true]

theorem tmPass_stopped {s : State} (h : s.tm.status ≠ .running) : tmPass s = .next s := if_neg h

theorem rmPass_exec {s : State} (hr : s.rm.status = .running) (hi : s.rm.ir ≠ haltIr) :
    rmPass s = exec (decodeRm s.cfg.opcodes.rm (Memory.read s.rm.mem s.rm.ir.toNat)) s := by
  simp only [rmPass, hr, Rm.fetch, hi, if_true, if_false]

theorem rmPass_halt {s : State} (hr : s.rm.status = .running) (hi : s.rm.ir = haltIr) :
    rmPass s = .next (s.setRm (s.rm.setStatus .done)) := by
  simp only [rmPass, hr, Rm.fetch, hi, if_true]

theorem rmPass_stopped {s : State} (h : s.rm.status ≠ .running) : rmPass s = .next s := if_neg h

/-- What a pass of `TM` can do: nothing when stopped, end at the end of the program, or run the decoded instruction. -/
theorem tmPass_next {s t : State} (h : tmPass s = .next t) :
    (s.tm.status ≠ .running ∧ t = s) ∨
      (s.tm.status = .running ∧ s.tm.prog[s.tm.pos]? = none ∧ t = s.setTm (s.tm.setStatus .done)) ∨
      ∃ b, s.tm.status = .running ∧ s.tm.prog[s.tm.pos]? = some b ∧ Effect (decodeTm s.cfg.opcodes.tm b) s t := by
  by_cases hr : s.tm.status = .running
  · cases hb : s.tm.prog[s.tm.pos]? with
    | none =>
      rw [tmPass_end hr hb] at h
      injection h with h
      exact .inr (.inl ⟨hr, rfl, h.symm⟩)
    | some b =>
      rw [tmPass_exec hr hb] at h
      exact .inr (.inr ⟨b, hr, rfl, exec_next h⟩)
  · rw [tmPass_stopped hr] at h
    injection h with h
    exact .inl ⟨hr, h.symm⟩

/-- What a pass of `RM` can do: nothing when stopped, halt at 255, or run the decoded instruction. -/
theorem rmPass_next {s t : State} (h : rmPass s = .next t) :
    (s.rm.status ≠ .running ∧ t = s) ∨
      (s.rm.status = .running ∧ s.rm.ir = haltIr ∧ t = s.setRm (s.rm.setStatus .done)) ∨
      (s.rm.status = .running ∧ s.rm.ir ≠ haltIr ∧
        Effect (decodeRm s.cfg.opcodes.rm (Memory.read s.rm.mem s.rm.ir.toNat)) s t) := by
  by_cases hr : s.rm.status = .running
  · by_cases hi : s.rm.ir = haltIr
    · rw [rmPass_halt hr hi] at h
      injection h with h
      exact .inr (.inl ⟨hr, hi, h.symm⟩)
    · rw [rmPass_exec hr hi] at h
      exact .inr (.inr ⟨hr, hi, exec_next h⟩)
  · rw [rmPass_stopped hr] at h
    injection h with h
    exact .inl ⟨hr, h.symm⟩

/-- What a step can do, in the state `u` whose schedule has lost the event: a pass of a core or a start. -/
theorem step_next {s t : State} (h : step s = .next t) :
    ∃ l, (tmPass (s.setSched l) = .next t ∧ (l = s.sched ∨ s.sched = .pass .tm :: l)) ∨
      (rmPass (s.setSched l) = .next t ∧ (l = s.sched ∨ s.sched = .pass .rm :: l)) ∨
      (∃ load, s.sched = .startTm load :: l ∧ t = (s.setSched l).setTm (s.tm.start load)) ∨
      ∃ image, s.sched = .startRm image :: l ∧ t = (s.setSched l).setRm (Rm.start image) := by
  cases hs : s.sched with
  | nil =>
    have hsame : s.setSched [] = s := by rw [← hs]; rfl
    rw [step_of_sched_nil hs] at h
    refine ⟨[], ?_⟩
    rw [hsame]
    cases hc : s.active with
    | tm => rw [hc] at h; exact .inl ⟨h, .inl rfl⟩
    | rm => rw [hc] at h; exact .inr (.inl ⟨h, .inl rfl⟩)
  | cons e l =>
    rw [step_of_sched_cons hs] at h
    refine ⟨l, ?_⟩
    cases e with
    | pass c =>
      cases c with
      | tm => exact .inl ⟨h, .inr rfl⟩
      | rm => exact .inr (.inl ⟨h, .inr rfl⟩)
    | startTm load =>
      injection h with h
      exact .inr (.inr (.inl ⟨load, rfl, h.symm⟩))
    | startRm image =>
      injection h with h
      exact .inr (.inr (.inr ⟨image, rfl, h.symm⟩))

@[simp] theorem runFor_zero (s : State) : runFor 0 s = .next s := rfl

theorem runFor_succ {s t : State} (k : Nat) (h : step s = .next t) : runFor (k + 1) s = runFor k t := by
  simp only [runFor, h]

/-- `runFor` is the host's run of this machine. -/
theorem runFor_eq_run (k : Nat) (s : State) : runFor k s = Host.Core.run Sys2Proof.core k s := by
  induction k generalizing s with
  | zero => rfl
  | succ k ih =>
    cases h : step s with
    | next t =>
      simp only [runFor, h, ih, Host.Core.run, show Sys2Proof.core.step s = .next t from h]
      rfl
    | fault f =>
      simp only [runFor, h, Host.Core.run, show Sys2Proof.core.step s = .fault f from h]
      rfl
    | refused r =>
      simp only [runFor, h, Host.Core.run, show Sys2Proof.core.step s = .refused r from h]
      rfl

/-- An invariant of the step holds in every reachable state. -/
theorem Reaches.invariant {P : State → Prop} (hstep : ∀ s t, P s → step s = .next t → P t) {s t : State}
    (h : Reaches s t) (hs : P s) : P t := by
  induction h with
  | refl => exact hs
  | more _ hu ih => exact hstep _ _ ih hu

end Sys2Proof.Machine
end

