-- ==== Sys2Proof/Tests/Slice0.lean ====
section
/-! SUPPORT. Tests. Expected results come from the spec: the words of spec/30_encoding.md and spec/opcode_table.json,
the vectors of spec/95_test_vectors.md (named by their ids) and the examples of the rules. Then one witness for each
statement that has hypotheses. -/

namespace Sys2Proof.Tests

open Sys2Proof.Machine

/-! ### Well-formedness: what each check refuses -/

theorem test_wellFormed_refuses_tmNop_of_opcode : (Instr.tmNop 0x3E#8).wellFormed OpcodeMap.ascii = false := by decide
theorem test_wellFormed_refuses_rmNop_of_opcode : (Instr.rmNop 0x21#8).wellFormed OpcodeMap.ascii = false := by decide
/-- R75: `!` is no opcode of `TM`, `,` is none of `RM`. -/
theorem test_wellFormed_accepts_other_cores_symbols :
    (Instr.tmNop 0x21#8).wellFormed OpcodeMap.ascii = true ∧
      (Instr.rmNop 0x2C#8).wellFormed OpcodeMap.ascii = true := by decide
theorem test_valid_refuses_tm_map_with_two_equal :
    ¬ OpcodeMap.Valid { OpcodeMap.ascii with tm := { TmOpcodes.ascii with left := 0x3E#8 } } := by decide
theorem test_valid_refuses_rm_map_with_two_equal :
    ¬ OpcodeMap.Valid { OpcodeMap.ascii with rm := { RmOpcodes.ascii with skipz := 0x21#8 } } := by decide
theorem test_valid_refuses_empty_tape : ¬ Config.Valid { Config.default with tapeLen := 0 } := by decide
theorem test_valid_accepts_default : Config.default.Valid := by decide

/-! ### Decoding: each row's word, bit by bit from spec/opcode_table.json -/

theorem test_decode_tmRight : decodeTm TmOpcodes.ascii 0b00111110#8 = .tmRight := by decide
theorem test_decode_tmLeft : decodeTm TmOpcodes.ascii 0b00111100#8 = .tmLeft := by decide
theorem test_decode_tmInc : decodeTm TmOpcodes.ascii 0b00101011#8 = .tmInc := by decide
theorem test_decode_tmDec : decodeTm TmOpcodes.ascii 0b00101101#8 = .tmDec := by decide
theorem test_decode_tmIn : decodeTm TmOpcodes.ascii 0b00101100#8 = .tmIn := by decide
theorem test_decode_tmOut : decodeTm TmOpcodes.ascii 0b00101110#8 = .tmOut := by decide
theorem test_decode_tmOpen : decodeTm TmOpcodes.ascii 0b01011011#8 = .tmOpen := by decide
theorem test_decode_tmClose : decodeTm TmOpcodes.ascii 0b01011101#8 = .tmClose := by decide
theorem test_decode_tmNop : decodeTm TmOpcodes.ascii 0b00000000#8 = .tmNop 0b00000000#8 := by decide
theorem test_decode_rmLoad : decodeRm RmOpcodes.ascii 0b00111100#8 = .rmLoad := by decide
theorem test_decode_rmStore : decodeRm RmOpcodes.ascii 0b00111110#8 = .rmStore := by decide
theorem test_decode_rmPoint : decodeRm RmOpcodes.ascii 0b00101010#8 = .rmPoint := by decide
theorem test_decode_rmJump : decodeRm RmOpcodes.ascii 0b00100001#8 = .rmJump := by decide
theorem test_decode_rmSwitch : decodeRm RmOpcodes.ascii 0b01011100#8 = .rmSwitch := by decide
theorem test_decode_rmAdd : decodeRm RmOpcodes.ascii 0b00101011#8 = .rmAdd := by decide
theorem test_decode_rmSub : decodeRm RmOpcodes.ascii 0b00101101#8 = .rmSub := by decide
theorem test_decode_rmInput : decodeRm RmOpcodes.ascii 0b00101000#8 = .rmInput := by decide
theorem test_decode_rmOutput : decodeRm RmOpcodes.ascii 0b00101001#8 = .rmOutput := by decide
theorem test_decode_rmSkipz : decodeRm RmOpcodes.ascii 0b00111111#8 = .rmSkipz := by decide
theorem test_decode_rmNop : decodeRm RmOpcodes.ascii 0b01011101#8 = .rmNop 0b01011101#8 := by decide
theorem test_decode_refuses_no_byte : decode .tm OpcodeMap.ascii [] = .error .noByte := rfl
/-- R79: `+++[->+<]` is `2B 2B 2B 5B 2D 3E 2B 3C 5D`. -/
theorem test_encode_source_example :
    [Instr.tmInc, .tmInc, .tmInc, .tmOpen, .tmDec, .tmRight, .tmInc, .tmLeft, .tmClose].flatMap
      (encode OpcodeMap.ascii) =
      [0x2B#8, 0x2B#8, 0x2B#8, 0x5B#8, 0x2D#8, 0x3E#8, 0x2B#8, 0x3C#8, 0x5D#8] := by decide
theorem test_tableWord_picks_core :
    decodeTableWord 8 0x3E = some .tmRight ∧ decodeTableWord 8 0x21 = some .rmJump ∧
      decodeTableWord 8 0x00 = some (.tmNop 0x00#8) ∧ decodeTableWord 0 0x3E = none := by decide

/-! ### Small states -/

/-- `TM` with a tape of four cells; the environment of R58 with the given input. -/
def tmState (prog : List Byte) (pos : Nat) (tape : Memory) (cur : Nat) (js : List Nat) (input : List Byte) : State :=
  { State.reset with
    cfg := { Config.default with tapeLen := 4 }
    tm := { Tm.reset with prog := prog, pos := pos, tape := tape, cur := cur, js := js }
    tmPort := { Port.reset with reads := input.map .ok } }

/-- `RM` active; the environment of R58 with the given input. -/
def rmState (mem : Memory) (dr ar ir sr : Byte) (input : List Byte) : State :=
  { State.reset with
    active := .rm
    rm := { Rm.reset with mem := mem, dr := dr, ar := ar, ir := ir, sr := sr }
    rmPort := { Port.reset with reads := input.map .ok } }

/-- The `TM` core after an outcome. -/
def tmOf (o : StepResult) : Option Tm := (nextOf o).map (·.tm)

/-- The `RM` core after an outcome. -/
def rmOf (o : StepResult) : Option Rm := (nextOf o).map (·.rm)

/-- A port at which every write fails, and which answers no read. -/
def deafPort : Port := { Port.reset with readsThen := none, writesThen := some .fail }

/-- A port that answers nothing (R55). -/
def silentPort : Port := { Port.reset with readsThen := none, writesThen := none }

/-! ### `TM`, one step each -/

/-- T18: from the last cell `>` goes to the phantom position. -/
theorem test_tmRight_last_cell : (tmOf (exec .tmRight (tmState [] 0 [] 3 [] []))).map (·.cur) = some 4 := by decide
/-- T9: from the phantom position `>` wraps to 0. -/
theorem test_tmRight_wraps : (tmOf (exec .tmRight (tmState [] 0 [] 4 [] []))).map (·.cur) = some 0 := by decide
/-- T6, R101 (a): from 0 `<` goes to `TAPE_LEN`. -/
theorem test_tmLeft_wraps : (tmOf (exec .tmLeft State.reset)).map (·.cur) = some 65536 := by decide
/-- R102's example: 255 + 1 = 0, and the canonical tape lists no zero cell. -/
theorem test_tmInc_wraps : (tmOf (exec .tmInc (tmState [] 0 [(1, 255#8)] 1 [] []))).map (·.tape) = some [] := by decide
/-- T7: an access at the phantom position fails and `POS` stays. -/
theorem test_tmInc_phantom :
    (tmOf (exec .tmInc (tmState [] 1 [] 4 [] []))).map (fun t => (t.status.pair, t.pos)) = some ((2, 5), 1) := by decide
/-- T15: 0 - 1 = 255. -/
theorem test_tmDec_wraps : (tmOf (exec .tmDec (tmState [] 0 [] 0 [] []))).map (·.tape) = some [(0, 255#8)] := by decide
/-- T24: the byte read replaces the cell. -/
theorem test_tmIn_replaces :
    (tmOf (exec .tmIn (tmState [] 1 [(0, 1#8)] 0 [] [9#8]))).map (fun t => (t.tape, t.pos)) = some ([(0, 9#8)], 2) := by
  decide
/-- T24b: end of input fails, the cell and `POS` keep their values. -/
theorem test_tmIn_end_of_input :
    (tmOf (exec .tmIn (tmState [] 1 [(0, 1#8)] 0 [] []))).map (fun t => (t.status.pair, t.tape, t.pos)) =
      some ((2, 3), [(0, 1#8)], 1) := by decide
/-- R111's example: the cell 65 is written. -/
theorem test_tmOut_writes :
    (nextOf (exec .tmOut (tmState [] 0 [(2, 65#8)] 2 [] []))).map (·.tmPort.log) = some [.write 65#8 .ok] := by decide
/-- T12: a failed write ends the run; the attempt is recorded. -/
theorem test_tmOut_write_fails :
    (nextOf (exec .tmOut { tmState [] 1 [(0, 1#8)] 0 [] [] with tmPort := deafPort })).map
      (fun t => (t.tm.status.pair, t.tm.pos, t.tmPort.log)) = some ((2, 4), 1, [.write 1#8 .fail]) := by decide
/-- R120's example: `POS = 3`, `JS = (1)`; after `[`: `JS = (1, 3)`, `POS = 4`. -/
theorem test_tmOpen_pushes :
    (tmOf (exec .tmOpen (tmState [] 3 [] 4 [1] []))).map (fun t => (t.js, t.pos)) = some ([3, 1], 4) := by decide
/-- T32: a full stack of depth 2. -/
theorem test_tmOpen_overflow :
    (tmOf (exec .tmOpen { tmState [] 2 [] 0 [1, 0] [] with cfg := { Config.default with jsDepth := some 2 } })).map
      (fun t => (t.status.pair, t.js)) = some ((2, 7), [1, 0]) := by decide
/-- R121's example: at 8 with `JS = (3)` and a cell of 2, `POS` becomes 4. -/
theorem test_tmClose_repeats :
    (tmOf (exec .tmClose (tmState [] 8 [(0, 2#8)] 0 [3] []))).map (fun t => (t.js, t.pos)) = some ([3], 4) := by decide
/-- T20: underflow is reported before the phantom position. -/
theorem test_tmClose_underflow_first :
    (tmOf (exec .tmClose (tmState [] 1 [] 4 [] []))).map (·.status.pair) = some (2, 2) := by decide
/-- R93: a no-op at the phantom position moves `POS` only. -/
theorem test_tmNop_phantom :
    (tmOf (exec (.tmNop 0x68#8) (tmState [] 0 [] 4 [] []))).map (fun t => (t.pos, t.cur)) = some (1, 4) := by decide
/-- T1: an empty program is `DONE` at once; it is the run from reset with nothing placed. -/
theorem test_tm_empty_program : (tmOf (step State.reset)).map (·.status.pair) = some (1, 0) := by decide

/-! ### `RM`, one step each -/

/-- M1. -/
theorem test_rmLoad : (rmOf (exec .rmLoad (rmState [(60, 5#8)] 9#8 60#8 0#8 0#8 []))).map (·.dr) = some 5#8 := by decide
/-- M1b: the first load reads its own opcode. -/
theorem test_rmLoad_own_opcode :
    (rmOf (step (rmState [(0, 0x3C#8)] 0#8 0#8 0#8 0#8 []))).map (fun r => (r.dr, r.ir)) = some (60#8, 1#8) := by decide
/-- M2. -/
theorem test_rmStore :
    (rmOf (exec .rmStore (rmState [] 7#8 100#8 0#8 0#8 []))).map (·.mem) = some [(100, 7#8)] := by decide
/-- R141 (c): a `>` at address 0 after reset replaces itself by 0x00. -/
theorem test_rmStore_over_itself :
    (rmOf (step (rmState [(0, 0x3E#8)] 0#8 0#8 0#8 0#8 []))).map (fun r => (r.mem, r.ir)) = some ([], 1#8) := by decide
/-- M3. -/
theorem test_rmPoint :
    (rmOf (exec .rmPoint (rmState [] 1#8 2#8 0#8 0#8 []))).map (fun r => (r.dr, r.ar)) = some (2#8, 1#8) := by decide
/-- M4. -/
theorem test_rmSwitch :
    (rmOf (exec .rmSwitch (rmState [] 1#8 9#8 0#8 2#8 []))).map (fun r => (r.dr, r.sr)) = some (2#8, 1#8) := by decide
/-- M5: 200 + 100 = 44. -/
theorem test_rmAdd_wraps :
    (rmOf (exec .rmAdd (rmState [(1, 200#8)] 100#8 1#8 0#8 0#8 []))).map (·.dr) = some 44#8 := by decide
/-- M6b: 3 - 5 = 254, memory minus register. -/
theorem test_rmSub_wraps :
    (rmOf (exec .rmSub (rmState [(1, 3#8)] 5#8 1#8 0#8 0#8 []))).map (·.dr) = some 254#8 := by decide
/-- M16. -/
theorem test_rmJump :
    (rmOf (exec .rmJump (rmState [] 0#8 253#8 5#8 0#8 []))).map (fun r => (r.ar, r.ir)) = some (5#8, 254#8) := by decide
/-- M16b: `AR = 255` steps over the halt. -/
theorem test_rmJump_over_halt :
    (rmOf (exec .rmJump (rmState [] 0#8 255#8 2#8 0#8 []))).map (fun r => (r.ar, r.ir)) = some (2#8, 0#8) := by decide
/-- M14: a skip at 254 wraps to 0. -/
theorem test_rmSkipz_wraps :
    (rmOf (exec .rmSkipz (rmState [] 0#8 0#8 254#8 0#8 []))).map (·.ir) = some 0#8 := by decide
/-- M10b: no skip when `DR` is not zero. -/
theorem test_rmSkipz_no_skip :
    (rmOf (exec .rmSkipz (rmState [] 1#8 0#8 20#8 0#8 []))).map (·.ir) = some 21#8 := by decide
/-- M7. -/
theorem test_rmInput : (rmOf (exec .rmInput (rmState [] 9#8 0#8 0#8 0#8 [65#8]))).map (·.dr) = some 65#8 := by decide
/-- M8: a failed read sets `DR` to 0 and the core keeps running. -/
theorem test_rmInput_end_of_input :
    (rmOf (exec .rmInput (rmState [] 9#8 0#8 0#8 0#8 []))).map (fun r => (r.dr, r.status)) =
      some (0#8, .running) := by decide
/-- M9. -/
theorem test_rmOutput :
    (nextOf (exec .rmOutput (rmState [] 65#8 0#8 0#8 0#8 []))).map (·.rmPort.log) = some [.write 65#8 .ok] := by decide
/-- M9b: a failed write changes no state of the core but `IR`. -/
theorem test_rmOutput_write_fails :
    (nextOf (exec .rmOutput { rmState [] 65#8 1#8 7#8 2#8 [] with rmPort := deafPort })).map
      (fun t => (t.rm, t.rmPort.log)) =
      some ({ Rm.reset with dr := 65#8, ar := 1#8, ir := 8#8, sr := 2#8 }, [.write 65#8 .fail]) := by decide
/-- M17b: a `TM` opcode is a no-op of `RM`. -/
theorem test_rmNop_tm_symbol :
    (rmOf (step (rmState [(7, 0x2C#8)] 3#8 0#8 7#8 0#8 []))).map (fun r => (r.ir, r.dr)) = some (8#8, 3#8) := by decide
/-- R130: `IR = 255` halts, whatever the byte there. -/
theorem test_rm_halts :
    (rmOf (step (rmState [(255, 0x29#8)] 0#8 0#8 255#8 0#8 []))).map (·.status.pair) = some (1, 0) := by decide

/-! ### Host -/

/-- R201: a start while running abandons the run; `Prog` is not changed. -/
theorem test_start_tm_again :
    (tmOf (step { tmState [0x2B#8] 1 [(0, 1#8)] 3 [0] [] with sched := [.startTm none] })) =
      some { Tm.reset with prog := [0x2B#8] } := by decide
theorem test_withFetchWord_runs_rm :
    (rmOf (step (State.reset.withFetchWord 8 0x21))).map (fun r => (r.ar, r.ir)) = some (0#8, 1#8) := by decide
theorem test_withFetchWord_runs_tm :
    (tmOf (step (State.reset.withFetchWord 8 0x5B))).map (fun t => (t.js, t.pos)) = some ([0], 1) := by decide

/-! ### Witnesses: states and operands that meet the hypotheses of each statement -/

theorem witness_DecodeEncodeAgree :
    OpcodeMap.ascii.Valid ∧ (Instr.tmNop 0x00#8).wellFormed OpcodeMap.ascii = true ∧
      Instr.rmSkipz.wellFormed OpcodeMap.ascii = true := by decide

theorem witness_StepRunsDecodedTm :
    let s := tmState [0x2B#8, 0x5D#8] 1 [] 0 [] []
    (s.tm.status = .running ∧ decode .tm s.cfg.opcodes (s.tm.prog.drop s.tm.pos) = .ok (.tmClose, []) ∧
      s.sched = [] ∧ s.active = .tm) ∧
    ({ s with sched := [.pass .tm] } : State).sched = .pass .tm :: [] := ⟨⟨rfl, rfl, rfl, rfl⟩, rfl⟩

theorem witness_StepRunsDecodedRm :
    let s := rmState [(254, 0x3F#8)] 0#8 0#8 254#8 0#8 []
    (s.rm.status = .running ∧ s.rm.ir ≠ 255#8 ∧
      decode .rm s.cfg.opcodes [Memory.read s.rm.mem s.rm.ir.toNat] = .ok (.rmSkipz, []) ∧
      s.sched = [] ∧ s.active = .rm) ∧
    ({ s with sched := [.pass .rm] } : State).sched = .pass .rm :: [] := ⟨⟨rfl, by decide, rfl, rfl, rfl⟩, rfl⟩

theorem witness_TmEndsAtProgramEnd :
    let s := tmState [0x5B#8] 1 [] 0 [0] []
    s.tm.status = .running ∧ s.tm.prog.length ≤ s.tm.pos ∧ s.sched = [] ∧ s.active = .tm ∧
      ({ s with sched := [.pass .tm] } : State).sched = .pass .tm :: [] := by decide

theorem witness_RmHaltsAt255 :
    let s := rmState [] 0#8 0#8 255#8 0#8 []
    s.rm.status = .running ∧ s.rm.ir = 255#8 ∧ s.sched = [] ∧ s.active = .rm ∧
      ({ s with sched := [.pass .rm] } : State).sched = .pass .rm :: [] := by decide

theorem witness_PlacedWordRunsNext :
    State.reset.cfg.opcodes = OpcodeMap.ascii ∧ Memory.wf State.reset.rm.mem ∧
      decodeTableWord 8 0x3F = some .rmSkipz := by decide

theorem witness_TmRightMovesCursor :
    let s := tmState [] 0 [] 3 [] []
    let p := tmState [] 0 [] 4 [] []
    s.tm.cur < s.cfg.tapeLen ∧ (p.tm.cur = p.cfg.tapeLen ∧ p.cfg.fwdOverrun = .wrapZero) ∧
      let f : State := { p with cfg := { p.cfg with fwdOverrun := .fault } }
      f.tm.cur = f.cfg.tapeLen ∧ f.cfg.fwdOverrun = .fault := by decide

theorem witness_TmIncAddsOneToCell :
    let s := tmState [] 0 [(1, 255#8)] 3 [] []
    let p := tmState [] 0 [(1, 255#8)] 4 [] []
    (s.tm.cur < s.cfg.tapeLen ∧ Memory.wf s.tm.tape) ∧ p.tm.cur = p.cfg.tapeLen := by decide

theorem witness_TmDecSubtractsOneFromCell :
    let s := tmState [] 0 [(1, 255#8)] 0 [] []
    let p := tmState [] 0 [] 4 [] []
    (s.tm.cur < s.cfg.tapeLen ∧ Memory.wf s.tm.tape) ∧ p.tm.cur = p.cfg.tapeLen := by decide

theorem witness_TmInReadsByteIntoCell :
    let s := tmState [] 0 [(1, 255#8)] 3 [] [0#8]
    let e := tmState [] 0 [] 3 [] []
    let p := tmState [] 0 [] 4 [] []
    p.tm.cur = p.cfg.tapeLen ∧
      (e.tm.cur < e.cfg.tapeLen ∧ e.tmPort.read = some (.fail, { Port.reset with log := [.read .fail] })) ∧
      (s.tm.cur < s.cfg.tapeLen ∧ Memory.wf s.tm.tape ∧
        s.tmPort.read = some (.ok 0#8, { Port.reset with log := [.read (.ok 0#8)] })) := by decide

theorem witness_TmOutWritesCell :
    let s := tmState [] 0 [(3, 255#8)] 3 [] []
    let e : State := { s with tmPort := deafPort }
    let p := tmState [] 0 [] 4 [] []
    p.tm.cur = p.cfg.tapeLen ∧
      (e.tm.cur < e.cfg.tapeLen ∧ e.tmPort.write (Memory.read e.tm.tape e.tm.cur) =
        some (.fail, { deafPort with log := [.write 255#8 .fail] })) ∧
      (s.tm.cur < s.cfg.tapeLen ∧ s.tmPort.write (Memory.read s.tm.tape s.tm.cur) =
        some (.ok, { Port.reset with log := [.write 255#8 .ok] })) := by decide

theorem witness_TmOpenPushesPosition :
    let s := tmState [] 0 [] 4 [1, 0] []
    let b : State := { s with cfg := { s.cfg with jsDepth := some 3 } }
    let f : State := { s with cfg := { s.cfg with jsDepth := some 2 } }
    s.cfg.jsDepth = none ∧ (b.cfg.jsDepth = some 3 ∧ b.tm.js.length < 3) ∧
      f.cfg.jsDepth = some f.tm.js.length := by decide

theorem witness_TmCloseRepeatsOrExits :
    let e := tmState [] 0 [] 4 [] []
    let p := tmState [] 9 [] 4 [3] []
    let z := tmState [] 9 [] 3 [3] []
    let n := tmState [] 9 [(3, 1#8)] 3 [3] []
    e.tm.js = [] ∧ (p.tm.js = 3 :: [] ∧ p.tm.cur = p.cfg.tapeLen) ∧
      (z.tm.js = 3 :: [] ∧ z.tm.cur < z.cfg.tapeLen ∧ Memory.read z.tm.tape z.tm.cur = 0#8) ∧
      (n.tm.js = 3 :: [] ∧ n.tm.cur < n.cfg.tapeLen ∧ Memory.read n.tm.tape n.tm.cur ≠ 0#8) := by decide

theorem witness_TmNopOnlyAdvances :
    (0x5C#8 : Byte) ∉ [0x3E#8, 0x3C#8, 0x2B#8, 0x2D#8, 0x2C#8, 0x2E#8, 0x5B#8, 0x5D#8] := by decide

theorem witness_RmStoreWritesCellAtAr : Memory.wf (rmState [(255, 1#8)] 7#8 255#8 0#8 0#8 []).rm.mem := by decide

theorem witness_RmInputReadsByteOrZero :
    let s := rmState [] 9#8 0#8 0#8 0#8 [255#8]
    let e := rmState [] 9#8 0#8 0#8 0#8 []
    s.rmPort.read = some (.ok 255#8, { Port.reset with log := [.read (.ok 255#8)] }) ∧
      e.rmPort.read = some (.fail, { Port.reset with log := [.read .fail] }) := by decide

theorem witness_RmOutputIgnoresAnswer :
    let s := rmState [] 9#8 0#8 0#8 0#8 []
    let e : State := { s with rmPort := deafPort }
    s.rmPort.write s.rm.dr = some (.ok, { Port.reset with log := [.write 9#8 .ok] }) ∧
      e.rmPort.write e.rm.dr = some (.fail, { deafPort with log := [.write 9#8 .fail] }) := by decide

theorem witness_RmNopOnlyAdvances :
    (0x5D#8 : Byte) ∉ [0x3C#8, 0x3E#8, 0x2A#8, 0x21#8, 0x5C#8, 0x2B#8, 0x2D#8, 0x28#8, 0x29#8, 0x3F#8] := by decide

theorem witness_UnansweredPortWaits :
    let s : State := { tmState [] 0 [] 3 [] [] with tmPort := silentPort, rmPort := silentPort }
    s.tm.cur < s.cfg.tapeLen ∧ s.tmPort.read = none ∧
      s.tmPort.write (Memory.read s.tm.tape s.tm.cur) = none ∧ s.rmPort.read = none ∧
      s.rmPort.write s.rm.dr = none := by decide

theorem witness_OneTransactionPerIo :
    (∃ t, exec .tmIn (tmState [] 0 [] 3 [] [7#8]) = .next t ∧ t.tm.pos = 0 + 1) ∧
      (∃ t, exec .tmOut (tmState [] 0 [] 3 [] []) = .next t ∧ t.tm.pos = 0 + 1) ∧
      (∃ t, exec .tmIn (tmState [] 0 [] 3 [] []) = .next t ∧ t.tm.status = .failed .ioRead) ∧
      (∃ t, exec .tmOut { tmState [] 0 [] 3 [] [] with tmPort := deafPort } = .next t ∧
        t.tm.status = .failed .ioWrite) ∧
      (∃ t, exec .rmInput (rmState [] 0#8 0#8 0#8 0#8 []) = .next t ∧ t.rm.ir = 0#8 + 1#8) ∧
      ∃ t, exec .rmOutput (rmState [] 0#8 0#8 0#8 0#8 []) = .next t ∧ t.rm.ir = 0#8 + 1#8 :=
  ⟨⟨_, rfl, rfl⟩, ⟨_, rfl, rfl⟩, ⟨_, rfl, rfl⟩, ⟨_, rfl, rfl⟩, ⟨_, rfl, rfl⟩, ⟨_, rfl, rfl⟩⟩

theorem witness_TrafficNeverRetracted : ∃ t, step State.reset = .next t := ⟨_, rfl⟩

theorem witness_FailureKindsAndCauses :
    let s := tmState [] 0 [] 4 [] []
    s.tm.status = .running ∧ s.tm.cur ≤ s.cfg.tapeLen ∧ withinDepth s.cfg.jsDepth s.tm.js.length = true ∧
      ∃ t, exec .tmOut s = .next t ∧ t.tm.status = .failed .tapeIndex :=
  ⟨rfl, by decide, rfl, _, rfl, rfl⟩

theorem witness_FailuresArePrecise :
    let s := tmState [] 0 [] 0 [] []
    s.tm.status = .running ∧ ∃ t, exec .tmIn s = .next t ∧ t.tm.status = .failed .ioRead :=
  ⟨rfl, _, rfl, rfl⟩

theorem witness_StoppedCoreStaysUntilStart :
    let s : State := { State.reset with
      tm := { Tm.reset with status := .done }, rm := { Rm.reset with status := .done } }
    (∃ t, step s = .next t) ∧ s.tm.status ≠ .running ∧ s.rm.status ≠ .running := ⟨⟨_, rfl⟩, by decide, by decide⟩

theorem witness_DoneOnlyFromLoopTest :
    (∃ t, step State.reset = .next t ∧ State.reset.tm.status = .running ∧ t.tm.status = .done) ∧
      ∃ t, step (rmState [] 0#8 0#8 255#8 0#8 []) = .next t ∧
        (rmState [] 0#8 0#8 255#8 0#8 []).rm.status = .running ∧ t.rm.status = .done :=
  ⟨⟨_, rfl, rfl, rfl⟩, _, rfl, rfl, rfl⟩

theorem witness_RmNeverFails :
    Instr.rmStore.core = .rm ∧ (∃ t, step State.reset = .next t) ∧ State.reset.rm.status.isFailed = false :=
  ⟨rfl, ⟨_, rfl⟩, rfl⟩

theorem witness_TmStartEstablishesReset :
    ({ State.reset with sched := [.startTm (some [0x2B#8])] } : State).sched = .startTm (some [0x2B#8]) :: [] := rfl

theorem witness_RmStartLoadsImage :
    ({ State.reset with sched := [.startRm (Vector.replicate 256 0x3C#8)] } : State).sched =
      .startRm (Vector.replicate 256 0x3C#8) :: [] := rfl

theorem witness_ParametersAndProgramFixed :
    ∃ t, step { State.reset with sched := [.startTm (some [0x2B#8])] } = .next t ∧ t.tm.prog = [0x2B#8] :=
  ⟨_, rfl, rfl⟩

theorem witness_OnlyListedInstructionsWrite :
    (∃ t, exec .rmJump (rmState [] 0#8 9#8 3#8 0#8 []) = .next t ∧ t.rm.ar ≠ 9#8 ∧ t.rm.ir ≠ 3#8) ∧
      (∃ t, exec .tmIn (tmState [] 0 [] 3 [] []) = .next t ∧ t.tm.status ≠ .running ∧ t.tmPort ≠ Port.reset) ∧
      ∃ t, exec .rmOutput (rmState [] 0#8 0#8 3#8 0#8 []) = .next t ∧ t.rmPort ≠ Port.reset :=
  ⟨⟨_, rfl, by decide, by decide⟩, ⟨_, rfl, by decide, by decide⟩, _, rfl, by decide⟩

theorem witness_StepKeepsInvariant :
    let s := tmState [0x5B#8, 0x2D#8, 0x5D#8] 2 [(3, 1#8)] 3 [0] []
    s.Inv ∧ ∃ t, step s = .next t := ⟨by decide, _, rfl⟩

theorem witness_NoRunStops : (tmState [0x5B#8, 0x2D#8, 0x5D#8] 2 [(3, 1#8)] 4 [0] []).Inv := by decide

theorem witness_JumpStackDepthBounded :
    let s : State := { tmState [0x5B#8, 0x5D#8] 0 [] 0 [] [] with
      cfg := { Config.default with tapeLen := 4, jsDepth := some 1 } }
    s.Inv ∧ s.cfg.jsDepth = some 1 ∧ s.tm.prog.count s.cfg.opcodes.tm.loopOpen ≤ 1 ∧ s.tm.status = .running ∧
      ∃ t, step s = .next t := ⟨by decide, rfl, by decide, rfl, _, rfl⟩

theorem witness_CursorMovesAreInverse :
    let s := tmState [] 0 [] 4 [] []
    s.tm.cur ≤ s.cfg.tapeLen ∧ s.cfg.fwdOverrun = .wrapZero := by decide

theorem witness_CellStepsAreInverse :
    let s := tmState [] 0 [(0, 255#8), (3, 7#8)] 3 [] []
    s.tm.cur < s.cfg.tapeLen ∧ Memory.wf s.tm.tape := by decide

/-- One state for each row of R134's two tables. -/
theorem witness_RmWaysToReach255 :
    let n := rmState [] 0#8 0#8 254#8 0#8 []
    let j := rmState [(7, 0x21#8)] 0#8 254#8 7#8 0#8 []
    let k := rmState [(253, 0x3F#8)] 0#8 0#8 253#8 0#8 []
    let o := rmState [(254, 0x3F#8)] 0#8 0#8 254#8 0#8 []
    let w := rmState [(7, 0x21#8)] 0#8 255#8 7#8 0#8 []
    ([n, j, k, o, w].map fun s => decodeRm s.cfg.opcodes.rm (Memory.read s.rm.mem s.rm.ir.toNat)) =
        [.rmNop 0#8, .rmJump, .rmSkipz, .rmSkipz, .rmJump] ∧
      (∀ s ∈ [n, j, k, o, w], s.rm.status = .running ∧ s.rm.ir ≠ 255#8 ∧ s.rmPort.read ≠ none ∧
        s.rmPort.write s.rm.dr ≠ none) ∧
      ([n, j, k, o, w].map fun s => (rmOf (rmPass s)).map (·.ir)) =
        [some 255#8, some 255#8, some 255#8, some 0#8, some 0#8] := by decide

/-- M2b: `AR = IR + 1`; and `AR = IR`. -/
theorem witness_NextFetchSeesStore :
    let s := rmState [(10, 0x3E#8)] 0x29#8 11#8 10#8 0#8 []
    let o := rmState [(10, 0x3E#8)] 0x29#8 10#8 10#8 0#8 []
    (s.sched = [] ∧ s.active = .rm ∧ s.rm.status = .running ∧ Memory.wf s.rm.mem ∧ s.rm.ir ≠ 255#8 ∧
        s.rm.ir ≠ 254#8 ∧
        decodeRm s.cfg.opcodes.rm (Memory.read s.rm.mem s.rm.ir.toNat) = .rmStore ∧ s.rm.ar = s.rm.ir + 1#8) ∧
      (decodeRm o.cfg.opcodes.rm (Memory.read o.rm.mem o.rm.ir.toNat) = .rmStore ∧ o.rm.ar = o.rm.ir) := by decide

theorem witness_TmIndependentOfRm :
    Instr.tmInc.core = .tm ∧ (∃ t, exec .tmInc (tmState [] 0 [] 0 [] []) = .next t) ∧
      exec .tmInc (tmState [] 0 [] 5 [] []) = .fault .cursorRange := ⟨rfl, ⟨_, rfl⟩, rfl⟩

theorem witness_RmIndependentOfTm :
    Instr.rmAdd.core = .rm ∧ ∃ t, exec .rmAdd (rmState [] 0#8 0#8 0#8 0#8 []) = .next t := ⟨rfl, _, rfl⟩

theorem witness_TmNoopProgramEnds :
    let s := tmState [0x68#8, 0x69#8] 0 [] 4 [] []
    s.sched = [] ∧ s.active = .tm ∧ s.tm.status = .running ∧ s.tm.pos ≤ s.tm.prog.length ∧
      ∀ b ∈ s.tm.prog, b ∉ s.cfg.opcodes.tm.bytes := by decide

theorem witness_RmNoopImageHalts :
    let s := rmState [(255, 0x3C#8)] 0#8 0#8 253#8 0#8 []
    s.sched = [] ∧ s.active = .rm ∧ s.rm.status = .running ∧
      ∀ a < 255, Memory.read s.rm.mem a ∉ s.cfg.opcodes.rm.bytes := by
  refine ⟨rfl, rfl, rfl, fun a ha => ?_⟩
  rw [show Memory.read (rmState [(255, 0x3C#8)] 0#8 0#8 253#8 0#8 []).rm.mem a = 0#8 from if_neg (by omega)]
  decide

end Sys2Proof.Tests
end

section
/-! PROOFS. No illegal encoding (spec/30_encoding.md R77): which bytes are a core's no-ops, and how many there are. -/

namespace Sys2Proof

/-- An opcode byte of the map never decodes to a no-op. -/
theorem not_mem_bytes_of_decodeTm_nop {m : TmOpcodes} {b x : Byte} (h : decodeTm m b = .tmNop x) : b ∉ m.bytes := by
  unfold decodeTm at h
  repeat' split at h
  case isFalse => simp [TmOpcodes.bytes, *]
  all_goals cases h

/-- An opcode byte of the map never decodes to a no-op. -/
theorem not_mem_bytes_of_decodeRm_nop {m : RmOpcodes} {b x : Byte} (h : decodeRm m b = .rmNop x) : b ∉ m.bytes := by
  unfold decodeRm at h
  repeat' split at h
  case isFalse => simp [RmOpcodes.bytes, *]
  all_goals cases h

theorem decodeTm_eq_nop_iff (m : TmOpcodes) (b : Byte) : decodeTm m b = .tmNop b ↔ b ∉ m.bytes :=
  ⟨not_mem_bytes_of_decodeTm_nop, decodeTm_nop⟩

theorem decodeRm_eq_nop_iff (m : RmOpcodes) (b : Byte) : decodeRm m b = .rmNop b ↔ b ∉ m.bytes :=
  ⟨not_mem_bytes_of_decodeRm_nop, decodeRm_nop⟩

theorem TmOpcodes.length_bytes (m : TmOpcodes) : m.bytes.length = 8 := rfl

theorem RmOpcodes.length_bytes (m : RmOpcodes) : m.bytes.length = 10 := rfl

/-- The 256 byte values, in order. -/
def allBytes : List Byte := (List.range 256).map (BitVec.ofNat 8)

theorem mem_allBytes (b : Byte) : b ∈ allBytes :=
  List.mem_map.mpr ⟨b.toNat, List.mem_range.mpr b.isLt, by simp⟩

theorem nodup_allBytes : allBytes.Nodup := by
  refine List.Nodup.map_on (fun x hx y hy h => ?_) List.nodup_range
  rw [List.mem_range] at hx hy
  have hn : x % 256 = y % 256 := congrArg BitVec.toNat h
  omega

/-- Distinct opcode bytes leave out exactly as many byte values as there are of them: among all bytes, those in the
list are the list itself in another order, and the rest are the complement. -/
theorem length_filter_not_mem {l : List Byte} (hl : l.Nodup) :
    ((List.range 256).filter fun n => decide (BitVec.ofNat 8 n ∉ l)).length = 256 - l.length := by
  have hin : (allBytes.filter (· ∈ l)).length = l.length := by
    refine List.Perm.length_eq ((List.perm_ext_iff_of_nodup (nodup_allBytes.filter _) hl).mpr fun b => ?_)
    simp [mem_allBytes]
  have hsum := allBytes.length_eq_length_filter_add (· ∈ l)
  have hout : (allBytes.filter fun b => !decide (b ∈ l)).length =
      ((List.range 256).filter fun n => decide (BitVec.ofNat 8 n ∉ l)).length := by
    simp [allBytes, List.filter_map, Function.comp_def]
  have hall : allBytes.length = 256 := by simp [allBytes]
  omega

/-- The no-ops of a `TM` map of distinct bytes: every byte value but its eight. -/
theorem length_filter_tmNop {m : TmOpcodes} (h : m.bytes.Nodup) :
    ((List.range 256).filter fun n => decide (decodeTm m (BitVec.ofNat 8 n) = .tmNop (BitVec.ofNat 8 n))).length =
      248 := by
  simpa only [decodeTm_eq_nop_iff, TmOpcodes.length_bytes] using length_filter_not_mem h

/-- The no-ops of an `RM` map of distinct bytes: every byte value but its ten. -/
theorem length_filter_rmNop {m : RmOpcodes} (h : m.bytes.Nodup) :
    ((List.range 256).filter fun n => decide (decodeRm m (BitVec.ofNat 8 n) = .rmNop (BitVec.ofNat 8 n))).length =
      246 := by
  simpa only [decodeRm_eq_nop_iff, RmOpcodes.length_bytes] using length_filter_not_mem h

/-- Settles O2: the decoders have a no-op branch after the last opcode byte, and the bytes of either ASCII map are
distinct, so the counts are 256 less 8 and 256 less 10. -/
theorem noIllegalEncoding : Obligations.NoIllegalEncoding :=
  ⟨fun m b => ⟨fun _ _ => rfl, decodeTm_eq_nop_iff m.tm b, decodeRm_eq_nop_iff m.rm b⟩,
    length_filter_tmNop (by decide), length_filter_rmNop (by decide)⟩

end Sys2Proof
end

section
/-! PROOFS. The `TM` no-op (spec/40_tm_execution_loop.md R93): which bytes it is, and that it only advances `POS`. -/

namespace Sys2Proof

/-- The byte set of R93's encoding line is the ASCII map's list of opcode bytes. -/
theorem TmOpcodes.bytes_ascii :
    TmOpcodes.ascii.bytes = [0x3E#8, 0x3C#8, 0x2B#8, 0x2D#8, 0x2C#8, 0x2E#8, 0x5B#8, 0x5D#8] := rfl

namespace Machine

/-- R93 from every state, the phantom position included: the advance of R91 and nothing else. -/
theorem exec_tmNop (x : Byte) (s : State) : exec (.tmNop x) s = .next (s.setTm s.tm.advance) := by
  rw [← State.tmDone_eq]
  rfl

end Machine

/-- Settles O18: a byte off the ASCII map decodes to its no-op (`decodeTm_nop`), and the no-op's advance writes `POS`
alone. -/
theorem tmNopOnlyAdvances : Obligations.TmNopOnlyAdvances := by
  refine ⟨fun b hb => ?_, fun x s => ?_⟩
  · rw [← TmOpcodes.bytes_ascii] at hb
    exact decodeTm_nop hb
  · exact Machine.exec_tmNop x s

end Sys2Proof
end

section
/-! PROOFS. `TM.LEFT` (spec/41_tm_cursor_cell.md R101): the two cases of the cursor, and what the instruction writes. -/

namespace Sys2Proof

namespace Machine

theorem cursorLeft_zero (cfg : Config) : cursorLeft cfg 0 = cfg.tapeLen := if_pos rfl

theorem cursorLeft_of_ne_zero {c : Nat} (cfg : Config) (h : c ≠ 0) : cursorLeft cfg c = c - 1 := if_neg h

/-- R101 from every state: the cursor's move and the advance of R91, with no failure. -/
theorem exec_tmLeft (s : State) :
    exec .tmLeft s = .next (s.setTm (s.tm.moveTo (cursorLeft s.cfg s.tm.cur)).advance) := by
  rw [← State.tmDone_eq]
  rfl

end Machine

/-- Settles O11: the instruction's effect is `exec_tmLeft`; from 0 the cursor goes to `TAPE_LEN`, from any other
position one left. -/
theorem tmLeftMovesCursor : Obligations.TmLeftMovesCursor := by
  refine ⟨by decide, fun s => ?_⟩
  rw [Machine.exec_tmLeft]
  split
  case isTrue h =>
    rw [h, Machine.cursorLeft_zero]
    rfl
  case isFalse h =>
    rw [Machine.cursorLeft_of_ne_zero _ h]
    rfl

end Sys2Proof
end

section
/-! PROOFS. The `RM` no-op (spec/44_rm_execution_loop.md R133): which bytes it is, and that it only advances `IR`. -/

namespace Sys2Proof

/-- The byte set of R133's encoding line is the ASCII map's list of opcode bytes. -/
theorem RmOpcodes.bytes_ascii :
    RmOpcodes.ascii.bytes =
      [0x3C#8, 0x3E#8, 0x2A#8, 0x21#8, 0x5C#8, 0x2B#8, 0x2D#8, 0x28#8, 0x29#8, 0x3F#8] := rfl

namespace Machine

/-- R133 from every state, `IR = 255` included: the trailing increment of R131, modulo 256, and nothing else. -/
theorem exec_rmNop (x : Byte) (s : State) : exec (.rmNop x) s = .next (s.setRm s.rm.advance) := by
  rw [← State.rmDone_eq]
  rfl

end Machine

/-- Settles O29: a byte off the ASCII map decodes to its no-op (`decodeRm_nop`), and the no-op's advance writes `IR`
alone. -/
theorem rmNopOnlyAdvances : Obligations.RmNopOnlyAdvances := by
  refine ⟨fun b hb => ?_, fun x s => ?_⟩
  · rw [← RmOpcodes.bytes_ascii] at hb
    exact decodeRm_nop hb
  · exact Machine.exec_rmNop x s

end Sys2Proof
end

section
/-! PROOFS. The `RM` data instructions (spec/45_rm_data.md): one equation of `exec` per instruction, from every state,
then the arithmetic and the exchanges that R140 to R145 speak of. -/

namespace Sys2Proof

namespace Machine

/-- R140: the load, then the trailing increment of R131. -/
theorem exec_rmLoad (s : State) : exec .rmLoad s = .next (s.setRm (s.rm.setDr s.memAtAr).advance) := by
  rw [← State.rmDone_eq]
  rfl

/-- R141: the store at `AR`, then the trailing increment of R131. -/
theorem exec_rmStore (s : State) : exec .rmStore s = .next (s.setRm (s.rm.setMemAtAr s.rm.dr).advance) := by
  rw [← State.rmDone_eq]
  rfl

/-- R142: both registers take the other's old value, then the trailing increment of R131. -/
theorem exec_rmPoint (s : State) :
    exec .rmPoint s = .next (s.setRm ((s.rm.setDr s.rm.ar).setAr s.rm.dr).advance) := by
  rw [← State.rmDone_eq]
  rfl

/-- R143: both registers take the other's old value, then the trailing increment of R131. -/
theorem exec_rmSwitch (s : State) :
    exec .rmSwitch s = .next (s.setRm ((s.rm.setDr s.rm.sr).setSr s.rm.dr).advance) := by
  rw [← State.rmDone_eq]
  rfl

/-- R144: the sum, then the trailing increment of R131. -/
theorem exec_rmAdd (s : State) :
    exec .rmAdd s = .next (s.setRm (s.rm.setDr (s.memAtAr + s.rm.dr)).advance) := by
  rw [← State.rmDone_eq]
  rfl

/-- R145: memory minus register, then the trailing increment of R131. -/
theorem exec_rmSub (s : State) :
    exec .rmSub s = .next (s.setRm (s.rm.setDr (s.memAtAr - s.rm.dr)).advance) := by
  rw [← State.rmDone_eq]
  rfl

/-- Two passes that complete move `IR` on by two, modulo 256. -/
theorem Rm.advance_advance (r : Rm) : r.advance.advance = r.setIr (r.ir + 2#8) :=
  congrArg r.setIr (BitVec.add_assoc r.ir 1#8 1#8)

/-- R142, applied twice: the exchange undoes itself, and only the two increments of `IR` are left. -/
theorem exec_rmPoint_exec_rmPoint (s : State) :
    exec .rmPoint (s.setRm ((s.rm.setDr s.rm.ar).setAr s.rm.dr).advance) =
      .next (s.setRm (s.rm.setIr (s.rm.ir + 2#8))) := by
  rw [exec_rmPoint, ← Rm.advance_advance]
  rfl

/-- R143, applied twice: the exchange undoes itself, and only the two increments of `IR` are left. -/
theorem exec_rmSwitch_exec_rmSwitch (s : State) :
    exec .rmSwitch (s.setRm ((s.rm.setDr s.rm.sr).setSr s.rm.dr).advance) =
      .next (s.setRm (s.rm.setIr (s.rm.ir + 2#8))) := by
  rw [exec_rmSwitch, ← Rm.advance_advance]
  rfl

/-- The difference of two bytes, as a number, is the non-negative residue of the integers' difference (R145). -/
theorem toNat_sub_eq_emod (x y : Byte) : ((x - y).toNat : Int) = (x.toNat - y.toNat : Int) % 256 := by
  have hsub : (x - y).toNat = (256 - y.toNat + x.toNat) % 256 := BitVec.toNat_sub x y
  have hy : y.toNat < 256 := y.isLt
  omega

end Machine

open Machine

/-- Settles O20: the store's effect is `exec_rmStore`; `Memory.write_wf` keeps the canonical form and
`Rm.read_setMemAtAr` says what every address reads afterwards. -/
theorem rmStoreWritesCellAtAr : Obligations.RmStoreWritesCellAtAr := by
  refine ⟨by decide, fun s hwf => ?_⟩
  have hread := Rm.read_setMemAtAr hwf s.rm.dr
  refine ⟨(s.rm.setMemAtAr s.rm.dr).mem, exec_rmStore s, Memory.write_wf hwf s.rm.ar.toNat s.rm.dr, ?_, fun a ha => ?_⟩
  · rw [hread, if_pos rfl]
  · rw [hread, if_neg ha]

/-- Settles O19: the load's effect, from every state, is `exec_rmLoad`. -/
theorem rmLoadReadsCellAtAr : Obligations.RmLoadReadsCellAtAr :=
  ⟨by decide, exec_rmLoad⟩

/-- Settles O21: one exchange is `exec_rmPoint`, two are `exec_rmPoint_exec_rmPoint`. -/
theorem rmPointSwapsDrAr : Obligations.RmPointSwapsDrAr :=
  ⟨by decide, fun s => ⟨_, exec_rmPoint s, rfl, exec_rmPoint_exec_rmPoint s⟩⟩

/-- Settles O22: one exchange is `exec_rmSwitch`, two are `exec_rmSwitch_exec_rmSwitch`. -/
theorem rmSwitchSwapsDrSr : Obligations.RmSwitchSwapsDrSr :=
  ⟨by decide, fun s => ⟨_, exec_rmSwitch s, rfl, exec_rmSwitch_exec_rmSwitch s⟩⟩

/-- Settles O23: the new `DR` is the sum of the two bytes (`exec_rmAdd`), and addition of bytes is modulo 256. -/
theorem rmAddAddsCellAtAr : Obligations.RmAddAddsCellAtAr :=
  ⟨by decide, fun s => ⟨s.memAtAr + s.rm.dr, BitVec.toNat_add s.memAtAr s.rm.dr, exec_rmAdd s⟩⟩

/-- Settles O24: the new `DR` is memory minus register (`exec_rmSub`), as a number the residue of
`toNat_sub_eq_emod`. -/
theorem rmSubSubtractsDrFromCell : Obligations.RmSubSubtractsDrFromCell :=
  ⟨by decide, fun s => ⟨s.memAtAr - s.rm.dr, toNat_sub_eq_emod s.memAtAr s.rm.dr, exec_rmSub s⟩⟩

end Sys2Proof
end

section
/-! PROOFS. The `RM` control transfer (spec/46_rm_control.md): the exchange of `AR` and `IR`, and the two cases of the
skip, each with the trailing increment of R131. -/

namespace Sys2Proof

namespace Machine

/-- R150: both registers take the other's old value, then the trailing increment of R131. -/
theorem exec_rmJump (s : State) : exec .rmJump s = .next (s.setRm ((s.rm.setAr s.rm.ir).setIr s.rm.ar).advance) := by
  rw [← State.rmDone_eq]
  rfl

/-- R151, `DR` zero: the extra increment and the trailing one. -/
theorem exec_rmSkipz_of_dr_eq_zero {s : State} (h : s.rm.dr = 0#8) :
    exec .rmSkipz s = .next (s.setRm (s.rm.setIr (s.rm.ir + 2#8))) := by
  rw [← Rm.advance_advance]
  exact if_pos (skipTaken_iff.mpr h)

/-- R151, `DR` not zero: the trailing increment alone. -/
theorem exec_rmSkipz_of_dr_ne_zero {s : State} (h : s.rm.dr ≠ 0#8) :
    exec .rmSkipz s = .next (s.setRm s.rm.advance) :=
  if_neg (mt skipTaken_iff.mp h)

end Machine

open Machine

/-- Settles O25: the exchange's effect, from every state, is `exec_rmJump`. -/
theorem rmJumpSwapsArIr : Obligations.RmJumpSwapsArIr :=
  ⟨by decide, exec_rmJump⟩

/-- Settles O26: `IR` goes on by two where `DR` is zero (`exec_rmSkipz_of_dr_eq_zero`) and by one where it is not
(`exec_rmSkipz_of_dr_ne_zero`). -/
theorem rmSkipzSkipsOnZero : Obligations.RmSkipzSkipsOnZero := by
  refine ⟨by decide, fun s => ?_⟩
  split
  case isTrue h => exact exec_rmSkipz_of_dr_eq_zero h
  case isFalse h => exact exec_rmSkipz_of_dr_ne_zero h

end Sys2Proof
end

section
/-! PROOFS. `RM` input and output (spec/47_rm_io.md): what each instruction does once its port has answered, whatever
the answer, then the byte `DR` takes from either answer to a read. -/

namespace Sys2Proof

namespace Machine

@[simp] theorem ReadAnswer.byteOrZero_ok (b : Byte) : (ReadAnswer.ok b).byteOrZero = b := rfl

@[simp] theorem ReadAnswer.byteOrZero_fail : ReadAnswer.fail.byteOrZero = 0#8 := rfl

/-- R160, either answer: the port after the one read, `DR` from the answer, then the trailing increment of R131. -/
theorem exec_rmInput_of_read {s : State} {a : ReadAnswer} {p : Port} (h : s.rmPort.read = some (a, p)) :
    exec .rmInput s = .next ((s.setRmPort p).setRm (s.rm.setDr a.byteOrZero).advance) :=
  calc exec .rmInput s
    _ = s.rmIoRead rmInputAnswered := rfl
    _ = rmInputAnswered (s.setRmPort p) a := State.rmIoRead_some h
    _ = .next ((s.setRmPort p).setRm (s.rm.setDr a.byteOrZero).advance) := State.rmDone_eq _ _

/-- R161, either answer: the port after the one write of `DR`, then the trailing increment of R131. -/
theorem exec_rmOutput_of_write {s : State} {a : WriteAnswer} {p : Port}
    (h : s.rmPort.write s.rm.dr = some (a, p)) :
    exec .rmOutput s = .next ((s.setRmPort p).setRm s.rm.advance) :=
  calc exec .rmOutput s
    _ = s.rmIoWrite s.rm.dr rmOutputAnswered := rfl
    _ = rmOutputAnswered (s.setRmPort p) a := State.rmIoWrite_some h
    _ = .next ((s.setRmPort p).setRm s.rm.advance) := State.rmDone_eq _ _

end Machine

open Machine

/-- Settles O27: an answered read completes by `exec_rmInput_of_read`; `DR` is the byte of an `ok` answer
(`ReadAnswer.byteOrZero_ok`) and 0 of a `fail` (`ReadAnswer.byteOrZero_fail`). -/
theorem rmInputReadsByteOrZero : Obligations.RmInputReadsByteOrZero := by
  refine ⟨by decide, fun s p => ⟨fun b hok => ?_, fun hfail => ?_⟩⟩
  · rw [exec_rmInput_of_read hok, ReadAnswer.byteOrZero_ok]
    rfl
  · rw [exec_rmInput_of_read hfail, ReadAnswer.byteOrZero_fail]
    rfl

/-- Settles O28: whatever the answer to the write of `DR`, the pass completes by `exec_rmOutput_of_write`. -/
theorem rmOutputIgnoresAnswer : Obligations.RmOutputIgnoresAnswer :=
  ⟨by decide, fun _ _ _ => exec_rmOutput_of_write⟩

end Sys2Proof
end

section
/-! PROOFS. Decode and encode agree, in both directions (spec/30_encoding.md R72 to R77): one direction by the branch
the byte takes in the decoder, the other by the opcode the instruction has in a map of distinct bytes. -/

namespace Sys2Proof

/-- Whichever branch of the decoder a byte takes, the instruction's byte is the one the branch compared with. -/
theorem encodeByte_decodeTm (m : OpcodeMap) (b : Byte) : encodeByte m (decodeTm m.tm b) = b := by
  unfold decodeTm
  repeat' split
  case isFalse => rfl
  all_goals exact Eq.symm ‹_›

/-- Whichever branch of the decoder a byte takes, the instruction's byte is the one the branch compared with. -/
theorem encodeByte_decodeRm (m : OpcodeMap) (b : Byte) : encodeByte m (decodeRm m.rm b) = b := by
  unfold decodeRm
  repeat' split
  case isFalse => rfl
  all_goals exact Eq.symm ‹_›

/-- The only instruction of `TM` with a field is the no-op, whose byte is off the map. -/
theorem wellFormed_decodeTm (m : OpcodeMap) (b : Byte) : (decodeTm m.tm b).wellFormed m = true := by
  cases h : decodeTm m.tm b with
  | tmNop x =>
    have hx : x = b := by rw [← encodeByte_decodeTm m b, h]; rfl
    subst hx
    simpa [Instr.wellFormed] using not_mem_bytes_of_decodeTm_nop h
  | rmNop x => exact absurd (decodeTm_core m.tm b) (by simp [h, Instr.core])
  | _ => rfl

/-- The only instruction of `RM` with a field is the no-op, whose byte is off the map. -/
theorem wellFormed_decodeRm (m : OpcodeMap) (b : Byte) : (decodeRm m.rm b).wellFormed m = true := by
  cases h : decodeRm m.rm b with
  | rmNop x =>
    have hx : x = b := by rw [← encodeByte_decodeRm m b, h]; rfl
    subst hx
    simpa [Instr.wellFormed] using not_mem_bytes_of_decodeRm_nop h
  | tmNop x => exact absurd (decodeRm_core m.rm b) (by simp [h, Instr.core])
  | _ => rfl

/-- In a map of distinct bytes no earlier branch of the decoder takes an instruction's byte; a well-formed no-op's is
taken by none. -/
theorem decodeTm_encodeByte {m : OpcodeMap} (hm : m.tm.bytes.Nodup) {i : Instr} (hc : i.core = .tm)
    (hi : i.wellFormed m = true) : decodeTm m.tm (encodeByte m i) = i := by
  simp only [TmOpcodes.bytes, List.nodup_cons, List.mem_cons, not_or] at hm
  cases i with
  | tmNop x =>
    have hx : x ∉ m.tm.bytes := by simpa [Instr.wellFormed] using hi
    exact decodeTm_nop hx
  | tmRight | tmLeft | tmInc | tmDec | tmIn | tmOut | tmOpen | tmClose =>
    simp [decodeTm, encodeByte, hm, Ne.symm]
  | _ => cases hc

/-- In a map of distinct bytes no earlier branch of the decoder takes an instruction's byte; a well-formed no-op's is
taken by none. -/
theorem decodeRm_encodeByte {m : OpcodeMap} (hm : m.rm.bytes.Nodup) {i : Instr} (hc : i.core = .rm)
    (hi : i.wellFormed m = true) : decodeRm m.rm (encodeByte m i) = i := by
  simp only [RmOpcodes.bytes, List.nodup_cons, List.mem_cons, not_or] at hm
  cases i with
  | rmNop x =>
    have hx : x ∉ m.rm.bytes := by simpa [Instr.wellFormed] using hi
    exact decodeRm_nop hx
  | rmLoad | rmStore | rmPoint | rmJump | rmSwitch | rmAdd | rmSub | rmInput | rmOutput | rmSkipz =>
    simp [decodeRm, encodeByte, hm, Ne.symm]
  | _ => cases hc

theorem decodeByte_encodeByte {m : OpcodeMap} (hm : m.Valid) {i : Instr} (hi : i.wellFormed m = true) :
    decodeByte i.core m (encodeByte m i) = i := by
  cases hc : i.core with
  | tm => exact decodeTm_encodeByte hm.1 hc hi
  | rm => exact decodeRm_encodeByte hm.2 hc hi

/-- Settles O3: the encoding is one byte, which `decode` takes off, and `decodeByte_encodeByte` reads it back. -/
theorem decodeEncodeAgree : Obligations.DecodeEncodeAgree := by
  intro m i rest hm hi
  calc decode i.core m (encode m i ++ rest)
    _ = .ok (decodeByte i.core m (encodeByte m i), rest) := rfl
    _ = .ok (i, rest) := by rw [decodeByte_encodeByte hm hi]

/-- Settles O4: the decoded byte is of its core (`decodeTm_core`), well formed (`wellFormed_decodeTm`) and encodes back
(`encodeByte_decodeTm`), and so for `RM`. -/
theorem encodeDecodeAgree : Obligations.EncodeDecodeAgree := by
  intro c m b rest
  refine ⟨decodeByte c m b, rfl, ?_⟩
  cases c with
  | tm => exact ⟨decodeTm_core m.tm b, wellFormed_decodeTm m b, congrArg ([·]) (encodeByte_decodeTm m b)⟩
  | rm => exact ⟨decodeRm_core m.rm b, wellFormed_decodeRm m b, congrArg ([·]) (encodeByte_decodeRm m b)⟩

/-- Settles O1: under the ASCII map both decoders are evaluated at the eighteen opcode bytes and at 0x00, as decision D1
gives them. -/
theorem decodeMapsOfBothCores : Obligations.DecodeMapsOfBothCores := by
  refine ⟨?_, ?_, ?_, ?_⟩ <;> decide

end Sys2Proof
end

section
/-! PROOFS. The `TM` instructions (spec/41_tm_cursor_cell.md, spec/42_tm_io.md, spec/43_tm_loop.md): one equation of
`exec` per instruction and case, then the rule of each instruction with its frame. -/

namespace Sys2Proof

namespace Machine

variable {s : State}

/-! ### The tape accesses, and what they have in common -/

/-- The instruction reads or writes the cell at the cursor in this state: `]` does so only once it has popped (R179). -/
def TapeAccess (i : Instr) (s : State) : Prop :=
  i = .tmInc ∨ i = .tmDec ∨ i = .tmIn ∨ i = .tmOut ∨ i = .tmClose ∧ s.tm.js ≠ []

/-- `]` on a jump stack that is not empty: everything it does stands behind the guard of the tape access. -/
theorem exec_tmClose_of_cons {q : Nat} {rest : List Nat} (hj : s.tm.js = q :: rest) :
    exec .tmClose s = s.atCell (if loopRepeats s.cell then s.tmDone ((s.tm.setJs (q :: rest)).jumpTo q)
      else s.tmDone (s.tm.setJs rest)) := by
  show execTmClose s = _
  rw [execTmClose, hj]

/-- The guard of R44 stands before everything else a tape access does. -/
theorem TapeAccess.exec_eq_atCell {i : Instr} (h : TapeAccess i s) : ∃ k, exec i s = s.atCell k := by
  obtain rfl | rfl | rfl | rfl | ⟨rfl, hj⟩ := h
  case inr.inr.inr.inr =>
    obtain ⟨q, rest, hj⟩ := List.exists_cons_of_ne_nil hj
    exact ⟨_, exec_tmClose_of_cons hj⟩
  all_goals exact ⟨_, rfl⟩

/-- R44, R178: at the phantom position every tape access raises, whatever it would have done. -/
theorem TapeAccess.exec_phantom {i : Instr} (h : TapeAccess i s) (hc : s.tm.cur = s.cfg.tapeLen) :
    exec i s = .next (s.raise .tapeIndex) := by
  obtain ⟨k, hk⟩ := h.exec_eq_atCell
  rw [hk, State.atCell_of_eq hc]

/-- Log entry 9: above the phantom position every tape access faults. -/
theorem TapeAccess.exec_fault {i : Instr} (h : TapeAccess i s) (hc : s.cfg.tapeLen < s.tm.cur) :
    exec i s = .fault .cursorRange := by
  obtain ⟨k, hk⟩ := h.exec_eq_atCell
  rw [hk, State.atCell_of_gt hc]

theorem tapeAccess_tmInc : TapeAccess .tmInc s := .inl rfl
theorem tapeAccess_tmDec : TapeAccess .tmDec s := .inr (.inl rfl)
theorem tapeAccess_tmIn : TapeAccess .tmIn s := .inr (.inr (.inl rfl))
theorem tapeAccess_tmOut : TapeAccess .tmOut s := .inr (.inr (.inr (.inl rfl)))
theorem tapeAccess_tmClose (h : s.tm.js ≠ []) : TapeAccess .tmClose s := .inr (.inr (.inr (.inr ⟨rfl, h⟩)))

/-! ### Cursor and cell -/

/-- R100 where the cursor has somewhere to go. -/
theorem exec_tmRight_of_some {c : Nat} (h : cursorRight s.cfg s.tm.cur = some c) :
    exec .tmRight s = .next (s.setTm (s.tm.moveTo c).advance) := by
  show execTmRight s = _
  simp only [execTmRight, h, State.tmDone_eq]

/-- R100 where it has not: decision D3 under `fault`. -/
theorem exec_tmRight_of_none (h : cursorRight s.cfg s.tm.cur = none) :
    exec .tmRight s = .next (s.raise .cursorOverrun) := by
  show execTmRight s = _
  simp only [execTmRight, h]

/-- R102 at a cell. -/
theorem exec_tmInc_of_lt (h : s.tm.cur < s.cfg.tapeLen) :
    exec .tmInc s = .next (s.setTm (s.tm.setCell (s.cell + 1#8)).advance) :=
  State.atCell_of_lt h

/-- R103 at a cell. -/
theorem exec_tmDec_of_lt (h : s.tm.cur < s.cfg.tapeLen) :
    exec .tmDec s = .next (s.setTm (s.tm.setCell (s.cell - 1#8)).advance) :=
  State.atCell_of_lt h

/-- A store at the cursor: the canonical form stays, the cell has the byte, every other address reads as before. -/
theorem Tm.setCell_frame {u : Tm} (h : Memory.wf u.tape) (v : Byte) :
    Memory.wf (u.setCell v).tape ∧ Memory.read (u.setCell v).tape u.cur = v ∧
      ∀ a, a ≠ u.cur → Memory.read (u.setCell v).tape a = Memory.read u.tape a := by
  have hread := Tm.read_setCell h v
  exact ⟨Memory.write_wf h u.cur v, by rw [hread, if_pos rfl], fun a ha => by rw [hread, if_neg ha]⟩

/-! ### Input and output -/

/-- R55 at a cell: with no answer to the read, `,` waits. -/
theorem exec_tmIn_waits (h : s.tm.cur < s.cfg.tapeLen) (hp : s.tmPort.read = none) : exec .tmIn s = .next s :=
  (State.atCell_of_lt h).trans (State.tmIoRead_none hp)

/-- R110 at a cell, a byte read: the port after the one read, the byte in the cell, the advance. -/
theorem exec_tmIn_of_ok {b : Byte} {p : Port} (h : s.tm.cur < s.cfg.tapeLen) (hp : s.tmPort.read = some (.ok b, p)) :
    exec .tmIn s = .next ((s.setTmPort p).setTm (s.tm.setCell b).advance) :=
  (State.atCell_of_lt h).trans (State.tmIoRead_some hp)

/-- R110 at a cell, a failed read: the port after the one read, and the run ended. -/
theorem exec_tmIn_of_fail {p : Port} (h : s.tm.cur < s.cfg.tapeLen) (hp : s.tmPort.read = some (.fail, p)) :
    exec .tmIn s = .next ((s.setTmPort p).raise .ioRead) :=
  (State.atCell_of_lt h).trans (State.tmIoRead_some hp)

/-- R55 at a cell: with no answer to the write, `.` waits. -/
theorem exec_tmOut_waits (h : s.tm.cur < s.cfg.tapeLen) (hp : s.tmPort.write s.cell = none) :
    exec .tmOut s = .next s :=
  (State.atCell_of_lt h).trans (State.tmIoWrite_none hp)

/-- R111 at a cell, the byte accepted: the port after the one write, and the advance. -/
theorem exec_tmOut_of_ok {p : Port} (h : s.tm.cur < s.cfg.tapeLen) (hp : s.tmPort.write s.cell = some (.ok, p)) :
    exec .tmOut s = .next ((s.setTmPort p).setTm s.tm.advance) :=
  (State.atCell_of_lt h).trans (State.tmIoWrite_some hp)

/-- R111 at a cell, a failed write: the port after the one write, and the run ended. -/
theorem exec_tmOut_of_fail {p : Port} (h : s.tm.cur < s.cfg.tapeLen) (hp : s.tmPort.write s.cell = some (.fail, p)) :
    exec .tmOut s = .next ((s.setTmPort p).raise .ioWrite) :=
  (State.atCell_of_lt h).trans (State.tmIoWrite_some hp)

/-! ### Loops -/

/-- R120 on a full stack: decision D6. -/
theorem exec_tmOpen_of_full (h : jsFull s.cfg.jsDepth s.tm.js.length = true) :
    exec .tmOpen s = .next (s.raise .jumpStackOverflow) :=
  if_pos h

/-- R120 otherwise: the push, then the advance. -/
theorem exec_tmOpen_of_not_full (h : ¬ jsFull s.cfg.jsDepth s.tm.js.length = true) :
    exec .tmOpen s = .next (s.setTm (s.tm.setJs (s.tm.pos :: s.tm.js)).advance) :=
  if_neg h

/-- R121 on an empty stack, at every cursor value. -/
theorem exec_tmClose_of_nil (h : s.tm.js = []) : exec .tmClose s = .next (s.raise .stackUnderflow) := by
  show execTmClose s = _
  rw [execTmClose, h]

/-- R121 at a zero cell: the pop, then the advance. -/
theorem exec_tmClose_exits {q : Nat} {rest : List Nat} (hj : s.tm.js = q :: rest) (hc : s.tm.cur < s.cfg.tapeLen)
    (hz : s.cell = 0#8) : exec .tmClose s = .next (s.setTm (s.tm.setJs rest).advance) := by
  rw [exec_tmClose_of_cons hj, State.atCell_of_lt hc, if_neg fun h => loopRepeats_iff.mp h hz, State.tmDone_eq]

/-- R121 at a cell that is not zero: `POS` to the `[`, then the advance; the stack is as it was. -/
theorem exec_tmClose_repeats {q : Nat} {rest : List Nat} (hj : s.tm.js = q :: rest) (hc : s.tm.cur < s.cfg.tapeLen)
    (hz : s.cell ≠ 0#8) : exec .tmClose s = .next (s.setTm (s.tm.jumpTo q).advance) := by
  rw [exec_tmClose_of_cons hj, State.atCell_of_lt hc, if_pos (loopRepeats_iff.mpr hz), State.tmDone_eq, ← hj]
  rfl

end Machine

open Machine

/-- Settles O12: at a cell the effect is `exec_tmInc_of_lt` and the frame `Tm.setCell_frame`; at the phantom position
the guard of the access raises. -/
theorem tmIncAddsOneToCell : Obligations.TmIncAddsOneToCell :=
  ⟨by decide, fun s => ⟨fun hlt hwf => ⟨_, exec_tmInc_of_lt hlt, Tm.setCell_frame hwf _⟩,
    tapeAccess_tmInc.exec_phantom⟩⟩

/-- Settles O13: at a cell the effect is `exec_tmDec_of_lt` and the frame `Tm.setCell_frame`; at the phantom position
the guard of the access raises. -/
theorem tmDecSubtractsOneFromCell : Obligations.TmDecSubtractsOneFromCell :=
  ⟨by decide, fun s => ⟨fun hlt hwf => ⟨_, exec_tmDec_of_lt hlt, Tm.setCell_frame hwf _⟩,
    tapeAccess_tmDec.exec_phantom⟩⟩

/-- Settles O14: the guard of the access comes before the transaction; after it, the two answers are
`exec_tmIn_of_ok`, with the frame `Tm.setCell_frame`, and `exec_tmIn_of_fail`. -/
theorem tmInReadsByteIntoCell : Obligations.TmInReadsByteIntoCell :=
  ⟨by decide, fun s => ⟨tapeAccess_tmIn.exec_phantom, fun hlt _ hp => exec_tmIn_of_fail hlt hp,
    fun hlt hwf b _ hp => ⟨_, exec_tmIn_of_ok hlt hp, Tm.setCell_frame hwf b⟩⟩⟩

/-- Settles O15: the guard of the access comes before the transaction; after it, the two answers to the write of the
cell are `exec_tmOut_of_ok` and `exec_tmOut_of_fail`. -/
theorem tmOutWritesCell : Obligations.TmOutWritesCell :=
  ⟨by decide, fun s => ⟨tapeAccess_tmOut.exec_phantom, fun hlt _ hp => exec_tmOut_of_fail hlt hp,
    fun hlt _ hp => exec_tmOut_of_ok hlt hp⟩⟩

/-- Settles O10: the cursor's move is `cursorRight_of_lt`, `cursorRight_wrap` or `cursorRight_fault`, by the cursor
and the parameter; the instruction completes where there is one and raises where there is none. -/
theorem tmRightMovesCursor : Obligations.TmRightMovesCursor :=
  ⟨by decide, fun _ => ⟨fun hlt => exec_tmRight_of_some (cursorRight_of_lt hlt),
    fun heq hwrap => exec_tmRight_of_some (cursorRight_wrap heq.ge hwrap),
    fun heq hfault => exec_tmRight_of_none (cursorRight_fault heq.ge hfault)⟩⟩

/-- Settles O16: a stack is full exactly where `JS_DEPTH` is a number not above the depth (`jsFull_iff`). -/
theorem tmOpenPushesPosition : Obligations.TmOpenPushesPosition := by
  refine ⟨by decide, fun s => ⟨fun hroom => exec_tmOpen_of_not_full fun hfull => ?_, fun hfull => ?_⟩⟩
  · obtain ⟨m, hm, hle⟩ := jsFull_iff.mp hfull
    obtain hnone | ⟨d, hd, hlt⟩ := hroom
    · simp [hnone] at hm
    · obtain rfl : d = m := Option.some.inj (hd.symm.trans hm)
      omega
  · exact exec_tmOpen_of_full (jsFull_iff.mpr ⟨_, hfull, le_rfl⟩)

/-- Settles O17: the stack is tested first (`exec_tmClose_of_nil`), then the cursor by the guard of the access, then the
cell (`exec_tmClose_exits`, `exec_tmClose_repeats`). -/
theorem tmCloseRepeatsOrExits : Obligations.TmCloseRepeatsOrExits :=
  ⟨by decide, fun _ => ⟨exec_tmClose_of_nil, fun _ _ hj =>
    ⟨(tapeAccess_tmClose (by simp [hj])).exec_phantom, exec_tmClose_exits hj, exec_tmClose_repeats hj⟩⟩⟩

/-- Settles O31: at a cell the two `TM` instructions wait by `exec_tmIn_waits` and `exec_tmOut_waits`; those of `RM`
have no guard. -/
theorem unansweredPortWaits : Obligations.UnansweredPortWaits :=
  fun _ => ⟨exec_tmIn_waits, exec_tmOut_waits, State.rmIoRead_none, State.rmIoWrite_none⟩

end Sys2Proof
end

section
/-! PROOFS. What undoes what (spec/41_tm_cursor_cell.md R104, R105): the cursor's two moves under `wrap_zero`, and the
two steps of a cell. -/

namespace Sys2Proof

namespace Machine

/-- R104: from below `TAPE_LEN` one up and one down; from `TAPE_LEN` to 0, from where `<` goes to `TAPE_LEN`. -/
theorem exists_cursorRight_cursorLeft {cfg : Config} {c : Nat} (hc : c ≤ cfg.tapeLen)
    (hw : cfg.fwdOverrun = .wrapZero) : ∃ d, cursorRight cfg c = some d ∧ cursorLeft cfg d = c := by
  rcases Nat.lt_or_eq_of_le hc with hlt | rfl
  · exact ⟨c + 1, cursorRight_of_lt hlt, cursorLeft_of_ne_zero cfg (Nat.succ_ne_zero c)⟩
  · exact ⟨0, cursorRight_wrap le_rfl hw, cursorLeft_zero cfg⟩

/-- R104: from 0 to `TAPE_LEN`, from where `>` wraps to 0; from elsewhere one down and one up. -/
theorem cursorRight_cursorLeft {cfg : Config} {c : Nat} (hc : c ≤ cfg.tapeLen) (hw : cfg.fwdOverrun = .wrapZero) :
    cursorRight cfg (cursorLeft cfg c) = some c := by
  by_cases hz : c = 0
  · rw [hz, cursorLeft_zero, cursorRight_wrap le_rfl hw]
  · rw [cursorLeft_of_ne_zero cfg hz, cursorRight_of_lt (by omega), Nat.sub_add_cancel (by omega)]

/-- Of two stores at an unmoved cursor the second one counts, and the tapes are equal as data. -/
theorem Tm.setCell_setCell {u : Tm} (h : Memory.wf u.tape) (v w : Byte) : (u.setCell v).setCell w = u.setCell w := by
  have hv : Memory.wf (u.setCell v).tape := Memory.write_wf h u.cur v
  have htape : ((u.setCell v).setCell w).tape = (u.setCell w).tape := by
    refine Memory.ext_read (Memory.write_wf hv u.cur w) (Memory.write_wf h u.cur w) fun a => ?_
    rw [Tm.read_setCell hv, Tm.read_setCell h, Tm.read_setCell h, Tm.setCell_cur]
    split <;> rfl
  exact congrArg (fun m => { u with tape := m }) htape

/-- Storing the byte the cell already has gives the tape back, as data. -/
theorem Tm.setCell_read {u : Tm} (h : Memory.wf u.tape) : u.setCell (Memory.read u.tape u.cur) = u := by
  have htape : (u.setCell (Memory.read u.tape u.cur)).tape = u.tape := by
    refine Memory.ext_read (Memory.write_wf h u.cur _) h fun a => ?_
    rw [Tm.read_setCell h]
    split
    case isTrue ha => rw [ha]
    case isFalse => rfl
  exact congrArg (fun m => { u with tape := m }) htape

/-- A pass that stores a byte and one that stores the old byte again leave two advances of `POS`. -/
theorem Tm.setCell_restore {u : Tm} (h : Memory.wf u.tape) (v : Byte) :
    ((u.setCell v).advance.setCell (Memory.read u.tape u.cur)).advance = u.jumpTo (u.pos + 2) :=
  calc ((u.setCell v).advance.setCell (Memory.read u.tape u.cur)).advance
    _ = ((u.setCell v).setCell (Memory.read u.tape u.cur)).jumpTo (u.pos + 2) := rfl
    _ = u.jumpTo (u.pos + 2) := by rw [Tm.setCell_setCell h, Tm.setCell_read h]

/-- The cell at the cursor after a pass that stored a byte there. -/
theorem State.cell_setTm_setCell {s : State} (h : Memory.wf s.tm.tape) (v : Byte) :
    (s.setTm (s.tm.setCell v).advance).cell = v := by
  obtain ⟨-, hcell, -⟩ := Tm.setCell_frame h v
  exact hcell

end Machine

open Machine

/-- Settles O50: the cursor comes back by `exists_cursorRight_cursorLeft` and by `cursorRight_cursorLeft`, and the two
passes leave two advances of `POS`. -/
theorem cursorMovesAreInverse : Obligations.CursorMovesAreInverse := by
  intro s hcur hwrap
  constructor
  · obtain ⟨d, hright, hleft⟩ := exists_cursorRight_cursorLeft hcur hwrap
    refine ⟨_, exec_tmRight_of_some hright, ?_⟩
    rw [exec_tmLeft, State.setTm_cfg, State.setTm_tm, Tm.advance_cur, Tm.moveTo_cur, hleft]
    rfl
  · exact ⟨_, exec_tmLeft s, exec_tmRight_of_some (cursorRight_cursorLeft hcur hwrap)⟩

/-- Settles O51: the second instruction finds the cell the first one left (`State.cell_setTm_setCell`) and stores the
old byte again, which gives the old tape back (`Tm.setCell_restore`). -/
theorem cellStepsAreInverse : Obligations.CellStepsAreInverse := by
  intro s hcur hwf
  constructor
  · refine ⟨_, exec_tmInc_of_lt hcur, ?_⟩
    rw [exec_tmDec_of_lt (s := s.setTm (s.tm.setCell (s.cell + 1#8)).advance) hcur,
      State.cell_setTm_setCell hwf, BitVec.add_sub_cancel]
    exact congrArg (Host.Outcome.next ∘ s.setTm) (Tm.setCell_restore hwf _)
  · refine ⟨_, exec_tmDec_of_lt hcur, ?_⟩
    rw [exec_tmInc_of_lt (s := s.setTm (s.tm.setCell (s.cell - 1#8)).advance) hcur,
      State.cell_setTm_setCell hwf, BitVec.sub_add_cancel]
    exact congrArg (Host.Outcome.next ∘ s.setTm) (Tm.setCell_restore hwf _)

end Sys2Proof
end

section
/-! PROOFS. What an instruction can answer: a next state, or the one fault of log entry 9; never a refusal. -/

namespace Sys2Proof

namespace Machine

variable {s : State}

/-! ### Every continuation of a port transaction or of a guard answers -/

theorem State.tmIoRead_total {k : State → ReadAnswer → StepResult} (h : ∀ u a, ∃ t, k u a = .next t) :
    ∃ t, s.tmIoRead k = .next t := by
  cases hp : s.tmPort.read with
  | none => exact ⟨s, State.tmIoRead_none hp⟩
  | some ap => rw [State.tmIoRead_some hp]; exact h _ _

theorem State.tmIoWrite_total {b : Byte} {k : State → WriteAnswer → StepResult} (h : ∀ u a, ∃ t, k u a = .next t) :
    ∃ t, s.tmIoWrite b k = .next t := by
  cases hp : s.tmPort.write b with
  | none => exact ⟨s, State.tmIoWrite_none hp⟩
  | some ap => rw [State.tmIoWrite_some hp]; exact h _ _

theorem State.rmIoRead_total {k : State → ReadAnswer → StepResult} (h : ∀ u a, ∃ t, k u a = .next t) :
    ∃ t, s.rmIoRead k = .next t := by
  cases hp : s.rmPort.read with
  | none => exact ⟨s, State.rmIoRead_none hp⟩
  | some ap => rw [State.rmIoRead_some hp]; exact h _ _

theorem State.rmIoWrite_total {b : Byte} {k : State → WriteAnswer → StepResult} (h : ∀ u a, ∃ t, k u a = .next t) :
    ∃ t, s.rmIoWrite b k = .next t := by
  cases hp : s.rmPort.write b with
  | none => exact ⟨s, State.rmIoWrite_none hp⟩
  | some ap => rw [State.rmIoWrite_some hp]; exact h _ _

theorem tmInAnswered_total (u : State) (a : ReadAnswer) : ∃ t, tmInAnswered u a = .next t := by
  cases a <;> exact ⟨_, rfl⟩

theorem tmOutAnswered_total (u : State) (a : WriteAnswer) : ∃ t, tmOutAnswered u a = .next t := by
  cases a <;> exact ⟨_, rfl⟩

theorem State.atCell_total {k : StepResult} (hc : s.tm.cur ≤ s.cfg.tapeLen) (hk : ∃ t, k = .next t) :
    ∃ t, s.atCell k = .next t := by
  rcases Nat.lt_or_eq_of_le hc with hlt | heq
  · rwa [State.atCell_of_lt hlt]
  · exact ⟨_, State.atCell_of_eq heq⟩

/-! ### Every instruction answers -/

/-- R136: an `RM` instruction answers a next state from every state. -/
theorem exec_rm_total {i : Instr} (hi : i.core = .rm) (s : State) : ∃ t, exec i s = .next t := by
  cases i with
  | rmLoad | rmStore | rmPoint | rmJump | rmSwitch | rmAdd | rmSub | rmNop => exact ⟨_, rfl⟩
  | rmInput => exact State.rmIoRead_total fun _ _ => ⟨_, rfl⟩
  | rmOutput => exact State.rmIoWrite_total fun _ _ => ⟨_, rfl⟩
  | rmSkipz =>
    by_cases hd : s.rm.dr = 0#8
    · exact ⟨_, exec_rmSkipz_of_dr_eq_zero hd⟩
    · exact ⟨_, exec_rmSkipz_of_dr_ne_zero hd⟩
  | _ => cases hi

/-- A `TM` instruction answers a next state where it accesses no cell or the cursor is in its range (R14). -/
theorem exec_tm_total {i : Instr} (hi : i.core = .tm) (h : TapeAccess i s → s.tm.cur ≤ s.cfg.tapeLen) :
    ∃ t, exec i s = .next t := by
  cases i with
  | tmRight =>
    cases hc : cursorRight s.cfg s.tm.cur with
    | none => exact ⟨_, exec_tmRight_of_none hc⟩
    | some c => exact ⟨_, exec_tmRight_of_some hc⟩
  | tmLeft | tmNop => exact ⟨_, rfl⟩
  | tmInc => exact State.atCell_total (h tapeAccess_tmInc) ⟨_, rfl⟩
  | tmDec => exact State.atCell_total (h tapeAccess_tmDec) ⟨_, rfl⟩
  | tmIn => exact State.atCell_total (h tapeAccess_tmIn) (State.tmIoRead_total tmInAnswered_total)
  | tmOut => exact State.atCell_total (h tapeAccess_tmOut) (State.tmIoWrite_total tmOutAnswered_total)
  | tmOpen =>
    by_cases hf : jsFull s.cfg.jsDepth s.tm.js.length = true
    · exact ⟨_, exec_tmOpen_of_full hf⟩
    · exact ⟨_, exec_tmOpen_of_not_full hf⟩
  | tmClose =>
    cases hj : s.tm.js with
    | nil => exact ⟨_, exec_tmClose_of_nil hj⟩
    | cons q rest =>
      rw [exec_tmClose_of_cons hj]
      exact State.atCell_total (h (tapeAccess_tmClose (by simp [hj]))) (by split <;> exact ⟨_, rfl⟩)
  | _ => cases hi

/-- The two outcomes of an instruction: a next state, or the fault of a tape access above `TAPE_LEN`. -/
theorem exec_outcome (i : Instr) (s : State) :
    (∃ t, exec i s = .next t) ∨
      (exec i s = .fault .cursorRange ∧ s.cfg.tapeLen < s.tm.cur ∧ TapeAccess i s) := by
  cases hi : i.core with
  | rm => exact .inl (exec_rm_total hi s)
  | tm =>
    by_cases h : TapeAccess i s ∧ s.cfg.tapeLen < s.tm.cur
    · obtain ⟨ha, hc⟩ := h
      exact .inr ⟨ha.exec_fault hc, hc, ha⟩
    · exact .inl (exec_tm_total hi fun ha => Nat.le_of_not_lt fun hc => h ⟨ha, hc⟩)

end Machine

open Machine

/-- Settles O39: of the two outcomes of `exec_outcome` neither is a refusal; the fault has its premises, and they give
it (`TapeAccess.exec_fault`). -/
theorem onlyFaultIsCursorRange : Obligations.OnlyFaultIsCursorRange := by
  intro i s
  obtain ⟨t, ht⟩ | ⟨hf, hc, ha⟩ := exec_outcome i s
  · refine ⟨fun r => by simp [ht], fun f => ⟨fun h => by simp [ht] at h, fun ⟨_, hc, ha⟩ => ?_⟩⟩
    have hfault := TapeAccess.exec_fault ha hc
    simp [ht] at hfault
  · refine ⟨fun r => by simp [hf], fun f => ⟨fun h => ?_, fun ⟨h, _, _⟩ => h ▸ hf⟩⟩
    rw [hf] at h
    injection h with h
    exact ⟨h.symm, hc, ha⟩

end Sys2Proof
end

section
/-! PROOFS. The two cores are independent (spec/00_scope.md R2): an instruction answers the same whatever stands in
the place of what its core does not see. That it leaves the rest unchanged is the same fact, with the rest put in its
own place. -/

namespace Sys2Proof

namespace Machine

/-- An outcome with its next state, if it is one, replaced. -/
def mapNext (f : State → State) : StepResult → StepResult
  | .next t => .next (f t)
  | .fault r => .fault r
  | .refused r => .refused r

@[simp] theorem mapNext_next (f : State → State) (t : State) : mapNext f (.next t) = .next (f t) := rfl

/-- The state `w` with all that `TM` sees put in from `s`: the core, its port and the parameters. -/
def State.withTmOf (w s : State) : State := { w with cfg := s.cfg, tm := s.tm, tmPort := s.tmPort }

/-- The state `w` with all that an `RM` instruction sees put in from `s`: the core and its port. -/
def State.withRmOf (w s : State) : State := { w with rm := s.rm, rmPort := s.rmPort }

variable (w : State) {s t : State}

/-! ### `TM` -/

theorem State.atCell_withTmOf {k l : StepResult} (h : l = mapNext w.withTmOf k) :
    (w.withTmOf s).atCell l = mapNext w.withTmOf (s.atCell k) := by
  rcases Nat.lt_trichotomy s.tm.cur s.cfg.tapeLen with hlt | heq | hgt
  · rw [State.atCell_of_lt hlt, State.atCell_of_lt (s := w.withTmOf s) hlt, h]
  · rw [State.atCell_of_eq heq, State.atCell_of_eq (s := w.withTmOf s) heq]
    rfl
  · rw [State.atCell_of_gt hgt, State.atCell_of_gt (s := w.withTmOf s) hgt]
    rfl

theorem State.tmIoRead_withTmOf {k : State → ReadAnswer → StepResult}
    (h : ∀ u a, k (w.withTmOf u) a = mapNext w.withTmOf (k u a)) :
    (w.withTmOf s).tmIoRead k = mapNext w.withTmOf (s.tmIoRead k) := by
  cases hp : s.tmPort.read with
  | none => rw [State.tmIoRead_none hp, State.tmIoRead_none (s := w.withTmOf s) hp, mapNext_next]
  | some ap =>
    rw [State.tmIoRead_some hp, State.tmIoRead_some (s := w.withTmOf s) hp]
    exact h (s.setTmPort ap.2) ap.1

theorem State.tmIoWrite_withTmOf {b : Byte} {k : State → WriteAnswer → StepResult}
    (h : ∀ u a, k (w.withTmOf u) a = mapNext w.withTmOf (k u a)) :
    (w.withTmOf s).tmIoWrite b k = mapNext w.withTmOf (s.tmIoWrite b k) := by
  cases hp : s.tmPort.write b with
  | none => rw [State.tmIoWrite_none hp, State.tmIoWrite_none (s := w.withTmOf s) hp, mapNext_next]
  | some ap =>
    rw [State.tmIoWrite_some hp, State.tmIoWrite_some (s := w.withTmOf s) hp]
    exact h (s.setTmPort ap.2) ap.1

/-- A `TM` instruction sees only its core, its port and the parameters, whatever its outcome. -/
theorem exec_withTmOf {i : Instr} (hi : i.core = .tm) (s : State) :
    exec i (w.withTmOf s) = mapNext w.withTmOf (exec i s) := by
  cases i with
  | tmRight =>
    cases hc : cursorRight s.cfg s.tm.cur with
    | none => rw [exec_tmRight_of_none hc, exec_tmRight_of_none (s := w.withTmOf s) hc]; rfl
    | some c => rw [exec_tmRight_of_some hc, exec_tmRight_of_some (s := w.withTmOf s) hc]; rfl
  | tmLeft | tmNop => rfl
  | tmInc | tmDec => exact State.atCell_withTmOf w rfl
  | tmIn => exact State.atCell_withTmOf w (State.tmIoRead_withTmOf w fun _ a => by cases a <;> rfl)
  | tmOut => exact State.atCell_withTmOf w (State.tmIoWrite_withTmOf w fun _ a => by cases a <;> rfl)
  | tmOpen =>
    by_cases hf : jsFull s.cfg.jsDepth s.tm.js.length = true
    · rw [exec_tmOpen_of_full hf, exec_tmOpen_of_full (s := w.withTmOf s) hf]; rfl
    · rw [exec_tmOpen_of_not_full hf, exec_tmOpen_of_not_full (s := w.withTmOf s) hf]; rfl
  | tmClose =>
    cases hj : s.tm.js with
    | nil => rw [exec_tmClose_of_nil hj, exec_tmClose_of_nil (s := w.withTmOf s) hj]; rfl
    | cons q rest =>
      rw [exec_tmClose_of_cons hj, exec_tmClose_of_cons (s := w.withTmOf s) hj]
      refine State.atCell_withTmOf w ?_
      show (if loopRepeats s.cell then _ else _) = _
      split <;> rfl
  | _ => cases hi

/-- The frame of a `TM` instruction: what it does not see is as before. -/
theorem withTmOf_of_exec {i : Instr} (hi : i.core = .tm) (h : exec i s = .next t) : s.withTmOf t = t := by
  have hself : exec i s = mapNext s.withTmOf (exec i s) := exec_withTmOf s hi s
  rw [h, mapNext_next] at hself
  injection hself with hself
  exact hself.symm

/-- The frame of a `TM` instruction, field by field. -/
theorem exec_tm_frame {i : Instr} (hi : i.core = .tm) (h : exec i s = .next t) :
    t.rm = s.rm ∧ t.rmPort = s.rmPort ∧ t.sched = s.sched ∧ t.active = s.active := by
  rw [← withTmOf_of_exec hi h]
  exact ⟨rfl, rfl, rfl, rfl⟩

/-! ### `RM` -/

theorem State.rmIoRead_withRmOf {k : State → ReadAnswer → StepResult}
    (h : ∀ u a, k (w.withRmOf u) a = mapNext w.withRmOf (k u a)) :
    (w.withRmOf s).rmIoRead k = mapNext w.withRmOf (s.rmIoRead k) := by
  cases hp : s.rmPort.read with
  | none => rw [State.rmIoRead_none hp, State.rmIoRead_none (s := w.withRmOf s) hp, mapNext_next]
  | some ap =>
    rw [State.rmIoRead_some hp, State.rmIoRead_some (s := w.withRmOf s) hp]
    exact h (s.setRmPort ap.2) ap.1

theorem State.rmIoWrite_withRmOf {b : Byte} {k : State → WriteAnswer → StepResult}
    (h : ∀ u a, k (w.withRmOf u) a = mapNext w.withRmOf (k u a)) :
    (w.withRmOf s).rmIoWrite b k = mapNext w.withRmOf (s.rmIoWrite b k) := by
  cases hp : s.rmPort.write b with
  | none => rw [State.rmIoWrite_none hp, State.rmIoWrite_none (s := w.withRmOf s) hp, mapNext_next]
  | some ap =>
    rw [State.rmIoWrite_some hp, State.rmIoWrite_some (s := w.withRmOf s) hp]
    exact h (s.setRmPort ap.2) ap.1

/-- An `RM` instruction sees only its core and its port. -/
theorem exec_withRmOf {i : Instr} (hi : i.core = .rm) (s : State) :
    exec i (w.withRmOf s) = mapNext w.withRmOf (exec i s) := by
  cases i with
  | rmLoad | rmStore | rmPoint | rmJump | rmSwitch | rmAdd | rmSub | rmNop => rfl
  | rmInput => exact State.rmIoRead_withRmOf w fun _ _ => rfl
  | rmOutput => exact State.rmIoWrite_withRmOf w fun _ _ => rfl
  | rmSkipz =>
    by_cases hd : s.rm.dr = 0#8
    · rw [exec_rmSkipz_of_dr_eq_zero hd, exec_rmSkipz_of_dr_eq_zero (s := w.withRmOf s) hd]; rfl
    · rw [exec_rmSkipz_of_dr_ne_zero hd, exec_rmSkipz_of_dr_ne_zero (s := w.withRmOf s) hd]; rfl
  | _ => cases hi

/-- The frame of an `RM` instruction: what it does not see is as before. -/
theorem withRmOf_of_exec {i : Instr} (hi : i.core = .rm) (h : exec i s = .next t) : s.withRmOf t = t := by
  have hself : exec i s = mapNext s.withRmOf (exec i s) := exec_withRmOf s hi s
  rw [h, mapNext_next] at hself
  injection hself with hself
  exact hself.symm

/-- The frame of an `RM` instruction, field by field. -/
theorem exec_rm_frame {i : Instr} (hi : i.core = .rm) (h : exec i s = .next t) :
    t.cfg = s.cfg ∧ t.tm = s.tm ∧ t.tmPort = s.tmPort ∧ t.sched = s.sched ∧ t.active = s.active := by
  rw [← withRmOf_of_exec hi h]
  exact ⟨rfl, rfl, rfl, rfl, rfl⟩

end Machine

open Machine

/-- Settles O54: the frame is `withTmOf_of_exec`; with another `RM` and port the outcome is the same by `exec_withTmOf`,
a next state up to that frame. -/
theorem tmIndependentOfRm : Obligations.TmIndependentOfRm := by
  intro i s r p hi
  have hother : exec i ((s.setRm r).setRmPort p) = mapNext ((s.setRm r).setRmPort p).withTmOf (exec i s) :=
    exec_withTmOf ((s.setRm r).setRmPort p) hi s
  refine ⟨fun t ht => ?_, fun f hf => by rw [hf] at hother; exact hother⟩
  obtain ⟨hrm, hport, -, -⟩ := exec_tm_frame hi ht
  rw [ht] at hother
  refine ⟨hrm, hport, hother.trans ?_⟩
  exact congrArg (fun u : State => Host.Outcome.next ((u.setRm r).setRmPort p)) (withTmOf_of_exec hi ht)

/-- Settles O55: the frame is `withRmOf_of_exec`; with another `TM`, port and parameters the next state is the same by
`exec_withRmOf`, up to that frame. -/
theorem rmIndependentOfTm : Obligations.RmIndependentOfTm := by
  intro i s t u p c hi ht
  have hother := exec_withRmOf { s with tm := u, tmPort := p, cfg := c } hi s
  obtain ⟨-, htm, hport, -, -⟩ := exec_rm_frame hi ht
  rw [ht] at hother
  refine ⟨htm, hport, hother.trans ?_⟩
  exact congrArg (fun v : State => Host.Outcome.next { v with tm := u, tmPort := p, cfg := c }) (withRmOf_of_exec hi ht)

end Sys2Proof
end

section
/-! PROOFS. What an instruction can change (spec/10_state.md R10, R20, R26): per field, which instructions write it. -/

namespace Sys2Proof

namespace Machine

/-- The "written by" column of R10 with `STATUS`, and the port column of R26, for the core `TM`. -/
structure TmWrites (i : Instr) (s t : State) : Prop where
  cfg : t.cfg = s.cfg
  prog : t.tm.prog = s.tm.prog
  cur : t.tm.cur ≠ s.tm.cur → i = .tmRight ∨ i = .tmLeft
  tape : t.tm.tape ≠ s.tm.tape → i = .tmInc ∨ i = .tmDec ∨ i = .tmIn
  js : t.tm.js ≠ s.tm.js → i = .tmOpen ∨ i = .tmClose
  pos : t.tm.pos ≠ s.tm.pos → i.core = .tm ∧ (t.tm.pos = s.tm.pos + 1 ∨ i = .tmClose)
  status : t.tm.status ≠ s.tm.status → t.tm.status.isFailed = true ∧
    (i = .tmRight ∨ i = .tmInc ∨ i = .tmDec ∨ i = .tmIn ∨ i = .tmOut ∨ i = .tmOpen ∨ i = .tmClose)
  port : t.tmPort ≠ s.tmPort → i = .tmIn ∨ i = .tmOut

/-- The "written by" column of R20 with `STATUS`, and the port column of R26, for the core `RM`. -/
structure RmWrites (i : Instr) (s t : State) : Prop where
  mem : t.rm.mem ≠ s.rm.mem → i = .rmStore
  dr : t.rm.dr ≠ s.rm.dr → i = .rmLoad ∨ i = .rmPoint ∨ i = .rmSwitch ∨ i = .rmAdd ∨ i = .rmSub ∨ i = .rmInput
  ar : t.rm.ar ≠ s.rm.ar → i = .rmPoint ∨ i = .rmJump
  sr : t.rm.sr ≠ s.rm.sr → i = .rmSwitch
  ir : t.rm.ir ≠ s.rm.ir → i.core = .rm ∧ (t.rm.ir = s.rm.ir + 1#8 ∨ i = .rmJump ∨ i = .rmSkipz)
  status : t.rm.status = s.rm.status
  port : t.rmPort ≠ s.rmPort → i = .rmInput ∨ i = .rmOutput

variable {i : Instr} {s t : State}

/-- Case by case of the effect, the fields an instruction of `TM` leaves alone are as before. -/
theorem Effect.tmWrites (hi : i.core = .tm) (h : Effect i s t) : TmWrites i s t := by
  cases i with
  | tmRight => obtain ⟨c, -, rfl⟩ | ⟨-, rfl⟩ := h <;> constructor <;> simp [Instr.core]
  | tmLeft | tmNop => obtain rfl := h; constructor <;> simp [Instr.core]
  | tmInc | tmDec => obtain ⟨-, rfl⟩ | ⟨-, rfl⟩ := h <;> constructor <;> simp [Instr.core]
  | tmIn =>
    obtain ⟨-, ⟨-, rfl⟩ | ⟨b, p, -, rfl⟩ | ⟨p, -, rfl⟩⟩ | ⟨-, rfl⟩ := h <;> constructor <;> simp [Instr.core]
  | tmOut =>
    obtain ⟨-, ⟨-, rfl⟩ | ⟨p, -, rfl⟩ | ⟨p, -, rfl⟩⟩ | ⟨-, rfl⟩ := h <;> constructor <;> simp [Instr.core]
  | tmOpen => obtain ⟨-, rfl⟩ | ⟨-, rfl⟩ := h <;> constructor <;> simp [Instr.core]
  | tmClose =>
    obtain ⟨-, rfl⟩ | ⟨q, rest, -, ⟨-, ⟨-, rfl⟩ | ⟨-, rfl⟩⟩ | ⟨-, rfl⟩⟩ := h <;> constructor <;> simp [Instr.core]
  | _ => cases hi

/-- Case by case of the effect, the fields an instruction of `RM` leaves alone are as before. -/
theorem Effect.rmWrites (hi : i.core = .rm) (h : Effect i s t) : RmWrites i s t := by
  cases i with
  | rmLoad | rmStore | rmPoint | rmJump | rmSwitch | rmAdd | rmSub | rmNop =>
    obtain rfl := h
    constructor <;> simp [Instr.core]
  | rmInput | rmOutput => obtain ⟨-, rfl⟩ | ⟨a, p, -, rfl⟩ := h <;> constructor <;> simp [Instr.core]
  | rmSkipz => obtain ⟨-, rfl⟩ | ⟨-, rfl⟩ := h <;> constructor <;> simp [Instr.core]
  | _ => cases hi

/-- An instruction of either core writes of `TM` only what its column lists: one of `RM` writes nothing of it. -/
theorem tmWrites_of_exec (h : exec i s = .next t) : TmWrites i s t := by
  cases hi : i.core with
  | tm => exact (exec_next h).tmWrites hi
  | rm =>
    obtain ⟨hcfg, htm, hport, -, -⟩ := exec_rm_frame hi h
    constructor <;> simp [hcfg, htm, hport]

/-- An instruction of either core writes of `RM` only what its column lists: one of `TM` writes nothing of it. -/
theorem rmWrites_of_exec (h : exec i s = .next t) : RmWrites i s t := by
  cases hi : i.core with
  | rm => exact (exec_next h).rmWrites hi
  | tm =>
    obtain ⟨hrm, hport, -, -⟩ := exec_tm_frame hi h
    constructor <;> simp [hrm, hport]

theorem exec_sched_active (h : exec i s = .next t) : t.sched = s.sched ∧ t.active = s.active := by
  cases hi : i.core with
  | tm =>
    obtain ⟨-, -, hframe⟩ := exec_tm_frame hi h
    exact hframe
  | rm =>
    obtain ⟨-, -, -, hframe⟩ := exec_rm_frame hi h
    exact hframe

end Machine

open Machine

/-- Settles O46: the columns of `TM` are `tmWrites_of_exec`, those of `RM` `rmWrites_of_exec`. -/
theorem onlyListedInstructionsWrite : Obligations.OnlyListedInstructionsWrite := by
  intro i s t h
  have htm := tmWrites_of_exec h
  have hrm := rmWrites_of_exec h
  obtain ⟨hsched, hactive⟩ := exec_sched_active h
  exact ⟨htm.cfg, hsched, hactive, htm.prog, htm.cur, htm.tape, htm.js, htm.pos, hrm.mem, hrm.dr, hrm.ar, hrm.sr,
    hrm.ir, hrm.status, htm.status, htm.port, hrm.port⟩

end Sys2Proof
end

section
/-! PROOFS. The failures of `TM` (spec/60_exceptions.md R172 to R179): what raises which kind, and that a failure is
precise. -/

namespace Sys2Proof

namespace Machine

/-- `i` raises `k` in `s`, and `p` is the port after it: the last column of R172's table, as the model tests it. -/
def Raises (i : Instr) (s : State) (k : FailKind) (p : Port) : Prop :=
  match k with
  | .typeShape => False
  | .stackUnderflow => i = .tmClose ∧ s.tm.js = [] ∧ p = s.tmPort
  | .ioRead => i = .tmIn ∧ s.tm.cur < s.cfg.tapeLen ∧ s.tmPort.read = some (.fail, p)
  | .ioWrite => i = .tmOut ∧ s.tm.cur < s.cfg.tapeLen ∧ s.tmPort.write s.cell = some (.fail, p)
  | .tapeIndex => s.tm.cur = s.cfg.tapeLen ∧ TapeAccess i s ∧ p = s.tmPort
  | .cursorOverrun => i = .tmRight ∧ cursorRight s.cfg s.tm.cur = none ∧ p = s.tmPort
  | .jumpStackOverflow => i = .tmOpen ∧ jsFull s.cfg.jsDepth s.tm.js.length = true ∧ p = s.tmPort

variable {i : Instr} {s t : State} {k : FailKind} {p : Port}

/-- R176: where an instruction raises, its next state has the new `STATUS`, the port and nothing else new. -/
theorem Raises.exec_eq (h : Raises i s k p) : exec i s = .next ((s.setTmPort p).raise k) := by
  cases k with
  | typeShape => exact h.elim
  | stackUnderflow => obtain ⟨rfl, hj, rfl⟩ := h; exact exec_tmClose_of_nil hj
  | ioRead => obtain ⟨rfl, hc, hp⟩ := h; exact exec_tmIn_of_fail hc hp
  | ioWrite => obtain ⟨rfl, hc, hp⟩ := h; exact exec_tmOut_of_fail hc hp
  | tapeIndex => obtain ⟨hc, ha, rfl⟩ := h; exact ha.exec_phantom hc
  | cursorOverrun => obtain ⟨rfl, hc, rfl⟩ := h; exact exec_tmRight_of_none hc
  | jumpStackOverflow => obtain ⟨rfl, hf, rfl⟩ := h; exact exec_tmOpen_of_full hf

/-- A guarded access had its effect at a cell, or raised at the phantom position. -/
theorem CellEffect.raises {P : Prop} (h : CellEffect s t P) (ha : TapeAccess i s) :
    P ∨ ∃ k p, Raises i s k p ∧ t = (s.setTmPort p).raise k :=
  h.imp And.right fun ⟨hc, ht⟩ => ⟨.tapeIndex, s.tmPort, ⟨hc, ha, rfl⟩, ht⟩

/-- R176: the only change of `STATUS` an instruction makes is to raise. -/
theorem Effect.raises (h : Effect i s t) (hs : t.tm.status ≠ s.tm.status) :
    ∃ k p, Raises i s k p ∧ t = (s.setTmPort p).raise k := by
  cases i with
  | tmRight =>
    obtain ⟨c, -, rfl⟩ | ⟨hc, rfl⟩ := h
    · simp at hs
    · exact ⟨.cursorOverrun, s.tmPort, ⟨rfl, hc, rfl⟩, rfl⟩
  | tmInc =>
    obtain rfl | hraise := h.raises tapeAccess_tmInc
    · simp at hs
    · exact hraise
  | tmDec =>
    obtain rfl | hraise := h.raises tapeAccess_tmDec
    · simp at hs
    · exact hraise
  | tmIn =>
    obtain ⟨hc, ⟨-, rfl⟩ | ⟨b, p, -, rfl⟩ | ⟨p, hp, rfl⟩⟩ | ⟨hc, rfl⟩ := h
    · simp at hs
    · simp at hs
    · exact ⟨.ioRead, p, ⟨rfl, hc, hp⟩, rfl⟩
    · exact ⟨.tapeIndex, s.tmPort, ⟨hc, tapeAccess_tmIn, rfl⟩, rfl⟩
  | tmOut =>
    obtain ⟨hc, ⟨-, rfl⟩ | ⟨p, -, rfl⟩ | ⟨p, hp, rfl⟩⟩ | ⟨hc, rfl⟩ := h
    · simp at hs
    · simp at hs
    · exact ⟨.ioWrite, p, ⟨rfl, hc, hp⟩, rfl⟩
    · exact ⟨.tapeIndex, s.tmPort, ⟨hc, tapeAccess_tmOut, rfl⟩, rfl⟩
  | tmOpen =>
    obtain ⟨hf, rfl⟩ | ⟨-, rfl⟩ := h
    · exact ⟨.jumpStackOverflow, s.tmPort, ⟨rfl, hf, rfl⟩, rfl⟩
    · simp at hs
  | tmClose =>
    obtain ⟨hj, rfl⟩ | ⟨q, rest, hj, hcell⟩ := h
    · exact ⟨.stackUnderflow, s.tmPort, ⟨rfl, hj, rfl⟩, rfl⟩
    · obtain ⟨-, rfl⟩ | ⟨-, rfl⟩ | hraise := or_assoc.mp (hcell.raises (tapeAccess_tmClose (by simp [hj])))
      · simp at hs
      · simp at hs
      · exact hraise
  | rmInput | rmOutput => obtain ⟨-, rfl⟩ | ⟨a, p, -, rfl⟩ := h <;> simp at hs
  | rmSkipz => obtain ⟨-, rfl⟩ | ⟨-, rfl⟩ := h <;> simp at hs
  | _ => obtain rfl := h; simp at hs

/-- For a running `TM`, `FAILED(k)` after an instruction is exactly a raise of `k`. -/
theorem failed_iff_raises (hrun : s.tm.status = .running) (h : exec i s = .next t) :
    t.tm.status = .failed k ↔ ∃ p, Raises i s k p := by
  constructor
  · intro hk
    obtain ⟨k', p, hraise, rfl⟩ := (exec_next h).raises (by simp [hk, hrun])
    obtain rfl : k' = k := by simpa using hk
    exact ⟨p, hraise⟩
  · rintro ⟨p, hraise⟩
    rw [hraise.exec_eq] at h
    injection h with h
    simp [← h]

/-- Only a failed transaction touches the port. -/
theorem Raises.port (h : Raises i s k p) :
    p = s.tmPort ∨ (i = .tmIn ∧ k = .ioRead) ∨ (i = .tmOut ∧ k = .ioWrite) := by
  cases k with
  | typeShape => exact h.elim
  | stackUnderflow | tapeIndex | cursorOverrun | jumpStackOverflow =>
    obtain ⟨-, -, hp⟩ := h
    exact .inl hp
  | ioRead =>
    obtain ⟨hi, -⟩ := h
    exact .inr (.inl ⟨hi, rfl⟩)
  | ioWrite =>
    obtain ⟨hi, -⟩ := h
    exact .inr (.inr ⟨hi, rfl⟩)

/-- With the cursor in its range, `>` has nowhere to go exactly at the phantom position under `fault`. -/
theorem cursorRight_eq_none_iff {cfg : Config} {c : Nat} (h : c ≤ cfg.tapeLen) :
    cursorRight cfg c = none ↔ c = cfg.tapeLen ∧ cfg.fwdOverrun = .fault := by
  refine ⟨fun hnone => ?_, fun ⟨hc, hf⟩ => cursorRight_fault hc.ge hf⟩
  have hc : c = cfg.tapeLen := by
    by_contra hne
    simp [cursorRight_of_lt (Nat.lt_of_le_of_ne h hne)] at hnone
  refine ⟨hc, ?_⟩
  cases hf : cfg.fwdOverrun with
  | fault => rfl
  | wrapZero => simp [cursorRight_wrap hc.ge hf] at hnone

/-- With the depth within `JS_DEPTH`, a stack is full exactly at that depth. -/
theorem jsFull_iff_eq {d : Option Nat} {n : Nat} (h : withinDepth d n = true) : jsFull d n = true ↔ d = some n := by
  cases d with
  | none => simp [jsFull]
  | some m =>
    have hn : n ≤ m := by simpa [withinDepth] using h
    simp only [jsFull, decide_eq_true_eq, Option.some.injEq]
    omega

end Machine

open Machine

/-- Settles O34: `FAILED(k)` is exactly a raise of `k` (`failed_iff_raises`), and with `CUR` and `JS` in their ranges
the model's tests are the table's conditions. -/
theorem failureKindsAndCauses : Obligations.FailureKindsAndCauses := by
  refine ⟨⟨rfl, rfl, rfl, rfl, rfl, rfl, rfl, rfl, rfl⟩, fun i s t k hrun hcur hdepth h => ?_⟩
  rw [failed_iff_raises hrun h]
  cases k with
  | typeShape => simp [Raises]
  | stackUnderflow => simp [Raises]
  | ioRead => simp [Raises]
  | ioWrite => simp [Raises, State.cell]
  | tapeIndex => simp [Raises, TapeAccess]
  | cursorOverrun => simp [Raises, cursorRight_eq_none_iff hcur]
  | jumpStackOverflow => simp [Raises, jsFull_iff_eq hdepth]

/-- Settles O35: the next state of a raise is `raise` on the state with the port of `Raises.port`. -/
theorem failuresArePrecise : Obligations.FailuresArePrecise := by
  intro i s t k hrun h hk
  obtain ⟨p, hraise⟩ := (failed_iff_raises hrun h).mp hk
  rw [hraise.exec_eq] at h
  injection h with h
  subst h
  exact ⟨rfl, hraise.port⟩

end Sys2Proof
end

section
/-! PROOFS. The record of the ports (spec/20_memory.md R55, R57): which instruction makes which transaction. -/

namespace Sys2Proof

namespace Machine

variable {i : Instr} {s t : State}

/-- `,` moved on with the byte of an `ok` answer, or stayed after a `fail`, or made no transaction and stayed. -/
theorem Effect.tmIn_log (h : Effect .tmIn s t) :
    (t.tmPort.log = s.tmPort.log ∧ t.tm.pos = s.tm.pos) ∨
      (∃ b, t.tmPort.log = s.tmPort.log ++ [.read (.ok b)]) ∨
      (t.tmPort.log = s.tmPort.log ++ [.read .fail] ∧ t.tm.pos = s.tm.pos) := by
  obtain ⟨-, ⟨-, rfl⟩ | ⟨b, p, hp, rfl⟩ | ⟨p, hp, rfl⟩⟩ | ⟨-, rfl⟩ := h
  · exact .inl ⟨rfl, rfl⟩
  · exact .inr (.inl ⟨b, (Port.read_log hp).1⟩)
  · exact .inr (.inr ⟨(Port.read_log hp).1, rfl⟩)
  · exact .inl ⟨rfl, rfl⟩

/-- `.` moved on after an `ok` answer to the cell, or stayed after a `fail`, or made no transaction and stayed. -/
theorem Effect.tmOut_log (h : Effect .tmOut s t) :
    (t.tmPort.log = s.tmPort.log ∧ t.tm.pos = s.tm.pos) ∨
      t.tmPort.log = s.tmPort.log ++ [.write s.cell .ok] ∨
      (t.tmPort.log = s.tmPort.log ++ [.write s.cell .fail] ∧ t.tm.pos = s.tm.pos) := by
  obtain ⟨-, ⟨-, rfl⟩ | ⟨p, hp, rfl⟩ | ⟨p, hp, rfl⟩⟩ | ⟨-, rfl⟩ := h
  · exact .inl ⟨rfl, rfl⟩
  · exact .inr (.inl (Port.write_log hp).1)
  · exact .inr (.inr ⟨(Port.write_log hp).1, rfl⟩)
  · exact .inl ⟨rfl, rfl⟩

/-- `(` made one read, or none and stayed. -/
theorem Effect.rmInput_log (h : Effect .rmInput s t) :
    (t.rmPort.log = s.rmPort.log ∧ t.rm.ir = s.rm.ir) ∨ ∃ a, t.rmPort.log = s.rmPort.log ++ [.read a] := by
  obtain ⟨-, rfl⟩ | ⟨a, p, hp, rfl⟩ := h
  · exact .inl ⟨rfl, rfl⟩
  · exact .inr ⟨a, (Port.read_log hp).1⟩

/-- `)` made one write of `DR`, or none and stayed. -/
theorem Effect.rmOutput_log (h : Effect .rmOutput s t) :
    (t.rmPort.log = s.rmPort.log ∧ t.rm.ir = s.rm.ir) ∨ ∃ a, t.rmPort.log = s.rmPort.log ++ [.write s.rm.dr a] := by
  obtain ⟨-, rfl⟩ | ⟨a, p, hp, rfl⟩ := h
  · exact .inl ⟨rfl, rfl⟩
  · exact .inr ⟨a, (Port.write_log hp).1⟩

/-- At most one transaction at the port of `TM`, and only by `,` and `.`. -/
theorem tmPort_log_of_exec (h : exec i s = .next t) :
    t.tmPort.log = s.tmPort.log ∨
      (i = .tmIn ∧ ∃ a, t.tmPort.log = s.tmPort.log ++ [.read a]) ∨
      (i = .tmOut ∧ ∃ a, t.tmPort.log = s.tmPort.log ++ [.write s.cell a]) := by
  by_cases hport : t.tmPort = s.tmPort
  · exact .inl (congrArg Port.log hport)
  obtain rfl | rfl := (tmWrites_of_exec h).port hport
  · obtain ⟨hl, -⟩ | ⟨b, hl⟩ | ⟨hl, -⟩ := (exec_next h).tmIn_log
    · exact .inl hl
    · exact .inr (.inl ⟨rfl, .ok b, hl⟩)
    · exact .inr (.inl ⟨rfl, .fail, hl⟩)
  · obtain ⟨hl, -⟩ | hl | ⟨hl, -⟩ := (exec_next h).tmOut_log
    · exact .inl hl
    · exact .inr (.inr ⟨rfl, .ok, hl⟩)
    · exact .inr (.inr ⟨rfl, .fail, hl⟩)

/-- At most one transaction at the port of `RM`, and only by `(` and `)`. -/
theorem rmPort_log_of_exec (h : exec i s = .next t) :
    t.rmPort.log = s.rmPort.log ∨
      (i = .rmInput ∧ ∃ a, t.rmPort.log = s.rmPort.log ++ [.read a]) ∨
      (i = .rmOutput ∧ ∃ a, t.rmPort.log = s.rmPort.log ++ [.write s.rm.dr a]) := by
  by_cases hport : t.rmPort = s.rmPort
  · exact .inl (congrArg Port.log hport)
  obtain rfl | rfl := (rmWrites_of_exec h).port hport
  · obtain ⟨hl, -⟩ | ha := (exec_next h).rmInput_log
    · exact .inl hl
    · exact .inr (.inl ⟨rfl, ha⟩)
  · obtain ⟨hl, -⟩ | ha := (exec_next h).rmOutput_log
    · exact .inl hl
    · exact .inr (.inr ⟨rfl, ha⟩)

/-- A `,` that moved on read a byte. -/
theorem tmIn_log_of_pos (h : exec .tmIn s = .next t) (hpos : t.tm.pos = s.tm.pos + 1) :
    ∃ b, t.tmPort.log = s.tmPort.log ++ [.read (.ok b)] := by
  obtain ⟨-, hp⟩ | hb | ⟨-, hp⟩ := (exec_next h).tmIn_log
  · omega
  · exact hb
  · omega

/-- A `.` that moved on wrote the cell. -/
theorem tmOut_log_of_pos (h : exec .tmOut s = .next t) (hpos : t.tm.pos = s.tm.pos + 1) :
    t.tmPort.log = s.tmPort.log ++ [.write s.cell .ok] := by
  obtain ⟨-, hp⟩ | hl | ⟨-, hp⟩ := (exec_next h).tmOut_log
  · omega
  · exact hl
  · omega

/-- R177: the failed read is in the record. -/
theorem log_of_ioRead (h : exec i s = .next t) (hrun : s.tm.status = .running)
    (hfail : t.tm.status = .failed .ioRead) : t.tmPort.log = s.tmPort.log ++ [.read .fail] := by
  obtain ⟨p, hraise⟩ := (failed_iff_raises hrun h).mp hfail
  obtain rfl : (s.setTmPort p).raise .ioRead = t := by simpa [h] using hraise.exec_eq.symm
  obtain ⟨-, -, hp⟩ := hraise
  exact (Port.read_log hp).1

/-- R177: the failed write is in the record. -/
theorem log_of_ioWrite (h : exec i s = .next t) (hrun : s.tm.status = .running)
    (hfail : t.tm.status = .failed .ioWrite) : t.tmPort.log = s.tmPort.log ++ [.write s.cell .fail] := by
  obtain ⟨p, hraise⟩ := (failed_iff_raises hrun h).mp hfail
  obtain rfl : (s.setTmPort p).raise .ioWrite = t := by simpa [h] using hraise.exec_eq.symm
  obtain ⟨-, -, hp⟩ := hraise
  exact (Port.write_log hp).1

/-- A `(` that moved on made its read. -/
theorem rmInput_log_of_ir (h : exec .rmInput s = .next t) (hir : t.rm.ir = s.rm.ir + 1#8) :
    ∃ a, t.rmPort.log = s.rmPort.log ++ [.read a] := by
  obtain ⟨-, hsame⟩ | ha := (exec_next h).rmInput_log
  · simp [hsame] at hir
  · exact ha

/-- A `)` that moved on made its write. -/
theorem rmOutput_log_of_ir (h : exec .rmOutput s = .next t) (hir : t.rm.ir = s.rm.ir + 1#8) :
    ∃ a, t.rmPort.log = s.rmPort.log ++ [.write s.rm.dr a] := by
  obtain ⟨-, hsame⟩ | ha := (exec_next h).rmOutput_log
  · simp [hsame] at hir
  · exact ha

end Machine

open Machine

/-- Settles O32: at most one transaction at each port (`tmPort_log_of_exec`, `rmPort_log_of_exec`); exactly one where
the program counter moved on, and where the transaction failed. -/
theorem oneTransactionPerIo : Obligations.OneTransactionPerIo := by
  intro i s t h
  refine ⟨tmPort_log_of_exec h, rmPort_log_of_exec h, ?_, ?_, fun _ => log_of_ioRead h, fun _ => log_of_ioWrite h,
    ?_, ?_⟩
  · rintro rfl; exact tmIn_log_of_pos h
  · rintro rfl; exact tmOut_log_of_pos h
  · rintro rfl; exact rmInput_log_of_ir h
  · rintro rfl; exact rmOutput_log_of_ir h

end Sys2Proof
end

section
/-! PROOFS. A step, seen from one core (spec/10_state.md R31, spec/60_exceptions.md R180): it leaves the core and its
port alone, ends its run, runs its instruction, or starts it. What a whole machine keeps is read off these cases. -/

namespace Sys2Proof

namespace Machine

/-- What a step from `s` to `t` is for the core `TM`. -/
inductive TmStep (s t : State) : Prop where
  | idle (htm : t.tm = s.tm) (hport : t.tmPort = s.tmPort)
  | ended (hrun : s.tm.status = .running) (hb : s.tm.prog[s.tm.pos]? = none) (htm : t.tm = s.tm.setStatus .done)
      (hport : t.tmPort = s.tmPort)
  | ran (l : List Event) (b : Byte) (hrun : s.tm.status = .running) (hb : s.tm.prog[s.tm.pos]? = some b)
      (hexec : exec (decodeTm s.cfg.opcodes.tm b) (s.setSched l) = .next t)
  | started (load : Option (List Byte)) (l : List Event) (hs : s.sched = .startTm load :: l)
      (htm : t.tm = s.tm.start load) (hport : t.tmPort = s.tmPort)

/-- What a step from `s` to `t` is for the core `RM`. -/
inductive RmStep (s t : State) : Prop where
  | idle (hrm : t.rm = s.rm) (hport : t.rmPort = s.rmPort)
  | halted (hrun : s.rm.status = .running) (hir : s.rm.ir = haltIr) (hrm : t.rm = s.rm.setStatus .done)
      (hport : t.rmPort = s.rmPort)
  | ran (l : List Event) (hrun : s.rm.status = .running) (hir : s.rm.ir ≠ haltIr)
      (hexec : exec (decodeRm s.cfg.opcodes.rm (Memory.read s.rm.mem s.rm.ir.toNat)) (s.setSched l) = .next t)
  | started (image : Vector Byte 256) (l : List Event) (hs : s.sched = .startRm image :: l)
      (hrm : t.rm = Rm.start image) (hport : t.rmPort = s.rmPort)

variable {s t : State}

/-- A pass of `TM` leaves the parameters and `RM` with its port alone. -/
theorem tmPass_frame (h : tmPass s = .next t) : t.cfg = s.cfg ∧ t.rm = s.rm ∧ t.rmPort = s.rmPort := by
  obtain ⟨-, rfl⟩ | ⟨-, -, rfl⟩ | ⟨b, hrun, hb, -⟩ := tmPass_next h
  · exact ⟨rfl, rfl, rfl⟩
  · exact ⟨rfl, rfl, rfl⟩
  · have hexec := (tmPass_exec hrun hb).symm.trans h
    obtain ⟨hrm, hport, -, -⟩ := exec_tm_frame (decodeTm_core _ _) hexec
    exact ⟨(tmWrites_of_exec hexec).cfg, hrm, hport⟩

/-- A pass of `RM` leaves the parameters and `TM` with its port alone. -/
theorem rmPass_frame (h : rmPass s = .next t) : t.cfg = s.cfg ∧ t.tm = s.tm ∧ t.tmPort = s.tmPort := by
  obtain ⟨-, rfl⟩ | ⟨-, -, rfl⟩ | ⟨hrun, hir, -⟩ := rmPass_next h
  · exact ⟨rfl, rfl, rfl⟩
  · exact ⟨rfl, rfl, rfl⟩
  · obtain ⟨hcfg, htm, hport, -, -⟩ := exec_rm_frame (decodeRm_core _ _) ((rmPass_exec hrun hir).symm.trans h)
    exact ⟨hcfg, htm, hport⟩

theorem step_cfg (h : step s = .next t) : t.cfg = s.cfg := by
  obtain ⟨l, ⟨h, -⟩ | ⟨h, -⟩ | ⟨load, -, rfl⟩ | ⟨image, -, rfl⟩⟩ := step_next h
  · obtain ⟨hcfg, -, -⟩ := tmPass_frame h
    exact hcfg
  · obtain ⟨hcfg, -, -⟩ := rmPass_frame h
    exact hcfg
  · rfl
  · rfl

theorem step_tm (h : step s = .next t) : TmStep s t := by
  obtain ⟨l, ⟨h, -⟩ | ⟨h, -⟩ | ⟨load, hs, rfl⟩ | ⟨image, -, rfl⟩⟩ := step_next h
  · obtain ⟨-, rfl⟩ | ⟨hrun, hb, rfl⟩ | ⟨b, hrun, hb, -⟩ := tmPass_next h
    · exact .idle rfl rfl
    · exact .ended hrun hb rfl rfl
    · exact .ran l b hrun hb ((tmPass_exec hrun hb).symm.trans h)
  · obtain ⟨-, htm, hport⟩ := rmPass_frame h
    exact .idle htm hport
  · exact .started load l hs rfl rfl
  · exact .idle rfl rfl

theorem step_rm (h : step s = .next t) : RmStep s t := by
  obtain ⟨l, ⟨h, -⟩ | ⟨h, -⟩ | ⟨load, -, rfl⟩ | ⟨image, hs, rfl⟩⟩ := step_next h
  · obtain ⟨-, hrm, hport⟩ := tmPass_frame h
    exact .idle hrm hport
  · obtain ⟨-, rfl⟩ | ⟨hrun, hir, rfl⟩ | ⟨hrun, hir, -⟩ := rmPass_next h
    · exact .idle rfl rfl
    · exact .halted hrun hir rfl rfl
    · exact .ran l hrun hir ((rmPass_exec hrun hir).symm.trans h)
  · exact .idle rfl rfl
  · exact .started image l hs rfl rfl

/-- R31: an instruction never gives a running `TM` the status `DONE`. -/
theorem exec_tm_status_ne_done {i : Instr} (h : exec i s = .next t) (hrun : s.tm.status = .running) :
    t.tm.status ≠ .done := by
  intro hdone
  obtain ⟨hfailed, -⟩ := (tmWrites_of_exec h).status (by simp [hdone, hrun])
  simp [hdone] at hfailed

end Machine

open Machine

/-- Settles O33: of the cases of a step only an instruction touches a record, and it appends. -/
theorem trafficNeverRetracted : Obligations.TrafficNeverRetracted := by
  intro s t h
  constructor
  · cases step_tm h with
    | idle _ hport | ended _ _ _ hport | started _ _ _ _ hport => rw [hport]
    | ran l b _ _ hexec =>
      obtain hl | ⟨-, a, hl⟩ | ⟨-, a, hl⟩ := tmPort_log_of_exec hexec <;> simp [hl]
  · cases step_rm h with
    | idle _ hport | halted _ _ _ hport | started _ _ _ _ hport => rw [hport]
    | ran l _ _ hexec =>
      obtain hl | ⟨-, a, hl⟩ | ⟨-, a, hl⟩ := rmPort_log_of_exec hexec <;> simp [hl]

/-- Settles O36: the cases of a step that end a run or run an instruction are of a running core. -/
theorem stoppedCoreStaysUntilStart : Obligations.StoppedCoreStaysUntilStart := by
  intro s t h
  refine ⟨fun hstop => ?_, fun hstop => ?_⟩
  · cases step_tm h with
    | idle htm hport => exact .inl ⟨htm, hport⟩
    | ended hrun | ran _ _ hrun => exact absurd hrun hstop
    | started load l hs => exact .inr ⟨load, l, hs⟩
  · cases step_rm h with
    | idle hrm hport => exact .inl ⟨hrm, hport⟩
    | halted hrun | ran _ hrun => exact absurd hrun hstop
    | started image l hs => exact .inr ⟨image, l, hs⟩

/-- Settles O37: of the cases of a step only the test before the fetch sets `DONE`; an instruction only raises. -/
theorem doneOnlyFromLoopTest : Obligations.DoneOnlyFromLoopTest := by
  intro s t h
  refine ⟨fun hrun hdone => ?_, fun hrun hdone => ?_⟩
  · cases step_tm h with
    | idle htm => simp [htm, hrun] at hdone
    | ended _ hb => exact List.getElem?_eq_none_iff.mp hb
    | ran _ _ _ _ hexec => exact absurd hdone (exec_tm_status_ne_done hexec hrun)
    | started _ _ _ htm => simp [htm, Tm.start] at hdone
  · cases step_rm h with
    | idle hrm => simp [hrm, hrun] at hdone
    | halted _ hir => exact hir
    | ran _ _ _ hexec => simp [(rmWrites_of_exec hexec).status, hrun] at hdone
    | started _ _ _ hrm => simp [hrm, Rm.start] at hdone

/-- Settles O38: every `RM` instruction answers (`exec_rm_total`), none writes `STATUS`, and no other case of a step
sets `FAILED`. -/
theorem rmNeverFails : Obligations.RmNeverFails := by
  refine ⟨fun i s hi => ?_, fun s t h hok => ?_⟩
  · obtain ⟨t, ht⟩ := exec_rm_total hi s
    exact ⟨t, ht, (rmWrites_of_exec ht).status⟩
  · cases step_rm h with
    | idle hrm => rwa [hrm]
    | halted _ _ hrm => simp [hrm]
    | ran _ _ _ hexec => rw [(rmWrites_of_exec hexec).status]; exact hok
    | started _ _ _ hrm => simp [hrm, Rm.start]

/-- Settles O45: no instruction writes a parameter or the program, and of the starts only one with a load brings a
program. -/
theorem parametersAndProgramFixed : Obligations.ParametersAndProgramFixed := by
  intro s t h
  refine ⟨step_cfg h, ?_⟩
  cases step_tm h with
  | idle htm | ended _ _ htm => exact .inl (by simp [htm])
  | ran _ _ _ _ hexec => exact .inl (tmWrites_of_exec hexec).prog
  | started load l hs htm =>
    cases load with
    | none => exact .inl (by rw [htm]; rfl)
    | some p => exact .inr ⟨p, l, hs, by rw [htm]; rfl⟩

end Sys2Proof
end

section
/-! PROOFS. What a step runs (spec/40_tm_execution_loop.md R90, R92, spec/44_rm_execution_loop.md R130): the decoded
instruction, the end of the run, and the instruction of a placed table word. -/

namespace Sys2Proof

namespace Machine

variable {s : State}

theorem step_of_active_tm (hs : s.sched = []) (ha : s.active = .tm) : step s = tmPass s := by
  rw [step_of_sched_nil hs, ha]
  rfl

theorem step_of_active_rm (hs : s.sched = []) (ha : s.active = .rm) : step s = rmPass s := by
  rw [step_of_sched_nil hs, ha]
  rfl

/-- The bytes from `POS` on decode to `i` exactly where the byte at `POS` does. -/
theorem fetch_of_decode_drop {m : OpcodeMap} {prog : List Byte} {pos : Nat} {i : Instr} {more : List Byte}
    (h : decode .tm m (prog.drop pos) = .ok (i, more)) : ∃ b, prog[pos]? = some b ∧ decodeTm m.tm b = i := by
  cases hd : prog.drop pos with
  | nil => simp [hd, decode] at h
  | cons b rest =>
    rw [hd] at h
    injection h with h
    injection h with hi
    refine ⟨b, ?_, hi⟩
    rw [← List.head?_drop, hd, List.head?_cons]

/-- The byte placed at a position is the one found there, whatever the program was. -/
theorem getElem?_placeInProg (prog : List Byte) (pos : Nat) (b : Byte) : (placeInProg prog pos b)[pos]? = some b := by
  have hlen : (prog.take pos ++ List.replicate (pos - prog.length) 0#8).length = pos := by
    simp only [List.length_append, List.length_take, List.length_replicate]
    omega
  have hmid := List.getElem?_append_right (l₂ := b :: prog.drop (pos + 1)) hlen.le
  rwa [hlen, Nat.sub_self, List.getElem?_cons_zero] at hmid

/-- `RM` is placed to fetch at an address that is fetched. -/
theorem Rm.withFetch_ir_ne_haltIr (r : Rm) (b : Byte) : (r.withFetch b).ir ≠ haltIr := by
  by_cases h : r.ir = haltIr
  · simp only [Rm.withFetch, h, if_true]
    decide
  · simpa only [Rm.withFetch, if_neg h] using h

/-- The byte placed for `RM` is the one it fetches. -/
theorem Rm.read_withFetch {r : Rm} (h : Memory.wf r.mem) (b : Byte) :
    Memory.read (r.withFetch b).mem (r.withFetch b).ir.toNat = b :=
  (Memory.read_write h _ b _).trans (if_pos rfl)

/-- The step after a byte is placed for a core is `exec` of what that core reads in it. -/
theorem step_withFetchByte (h : Memory.wf s.rm.mem) (c : CoreId) (b : Byte) :
    step (s.withFetchByte c b) = exec (decodeByte c s.cfg.opcodes b) (s.withFetchByte c b) := by
  cases c with
  | tm =>
    rw [step_of_active_tm rfl rfl]
    exact tmPass_exec rfl (getElem?_placeInProg s.tm.prog s.tm.pos b)
  | rm =>
    rw [step_of_active_rm rfl rfl, rmPass_exec rfl (Rm.withFetch_ir_ne_haltIr s.rm b)]
    exact congrArg (fun v => exec (decodeRm s.cfg.opcodes.rm v) (s.withFetchByte .rm b)) (Rm.read_withFetch h b)

end Machine

open Machine

/-- Settles O9: a table word of 8 bits is one byte, placed for the core that reads it (`step_withFetchByte`). -/
theorem placedWordRunsNext : Obligations.PlacedWordRunsNext := by
  intro s w i hascii hwf hi
  have hi : decodeByte (tableCore (BitVec.ofNat 8 w)) OpcodeMap.ascii (BitVec.ofNat 8 w) = i := Option.some.inj hi
  rw [← hi, ← hascii]
  exact step_withFetchByte hwf _ _

/-- Settles O5: the first byte from `POS` on is the byte `TM` fetches (`fetch_of_decode_drop`), and its pass is `exec`
of that byte's instruction (`tmPass_exec`). -/
theorem stepRunsDecodedTm : Obligations.StepRunsDecodedTm := by
  intro s i more hrun hdec
  obtain ⟨b, hb, rfl⟩ := fetch_of_decode_drop hdec
  refine ⟨fun hs ha => ?_, fun rest hs => ?_⟩
  · rw [step_of_active_tm hs ha, tmPass_exec hrun hb]
  · rw [step_of_sched_cons hs]
    exact tmPass_exec (s := s.setSched rest) hrun hb

/-- Settles O6: the byte at `IR` is the byte `RM` fetches, and its pass is `exec` of that byte's instruction
(`rmPass_exec`). -/
theorem stepRunsDecodedRm : Obligations.StepRunsDecodedRm := by
  intro s i more hrun hir hdec
  injection hdec with hdec
  injection hdec with hi
  subst hi
  refine ⟨fun hs ha => ?_, fun rest hs => ?_⟩
  · rw [step_of_active_rm hs ha, rmPass_exec hrun hir]
    rfl
  · rw [step_of_sched_cons hs]
    exact rmPass_exec (s := s.setSched rest) hrun hir

/-- Settles O7: with `POS` at the end there is no byte to fetch, and the pass is `tmPass_end`. -/
theorem tmEndsAtProgramEnd : Obligations.TmEndsAtProgramEnd := by
  intro s hrun hpos
  have hb : s.tm.prog[s.tm.pos]? = none := List.getElem?_eq_none hpos
  refine ⟨fun hs ha => ?_, fun rest hs => ?_⟩
  · rw [step_of_active_tm hs ha]
    exact tmPass_end hrun hb
  · rw [step_of_sched_cons hs]
    exact tmPass_end (s := s.setSched rest) hrun hb

/-- Settles O8: with `IR` at 255 the pass is `rmPass_halt`, which reads no cell. -/
theorem rmHaltsAt255 : Obligations.RmHaltsAt255 := by
  intro s hrun hir
  refine ⟨fun hs ha => ?_, fun rest hs => ?_⟩
  · rw [step_of_active_rm hs ha]
    exact rmPass_halt hrun hir
  · rw [step_of_sched_cons hs]
    exact rmPass_halt (s := s.setSched rest) hrun hir

end Sys2Proof
end

section
/-! PROOFS. Start, reset and read-out (spec/70_reset_and_hazards.md R200 to R206), and the reference environment of
spec/20_memory.md R58. -/

namespace Sys2Proof

namespace Machine

theorem step_startTm {s : State} {load : Option (List Byte)} {l : List Event} (h : s.sched = .startTm load :: l) :
    step s = .next ((s.setSched l).setTm (s.tm.start load)) := by
  rw [step_of_sched_cons h]
  rfl

theorem step_startRm {s : State} {image : Vector Byte 256} {l : List Event} (h : s.sched = .startRm image :: l) :
    step s = .next ((s.setSched l).setRm (Rm.start image)) := by
  rw [step_of_sched_cons h]
  rfl

/-- The image lies within the 256 cells. -/
theorem Rm.start_below (image : Vector Byte 256) : Memory.below (Rm.start image).mem 256 := by
  intro c hc
  obtain ⟨-, hlt⟩ := Memory.mem_ofBytes hc
  simpa using hlt

/-- Every cell has the byte of the image. -/
theorem Rm.read_start (image : Vector Byte 256) {a : Nat} (h : a < 256) :
    Memory.read (Rm.start image).mem a = image[a] := by
  have hread := Memory.read_ofBytes image.toList 0 a
  rw [Nat.zero_add] at hread
  refine hread.trans ?_
  rw [List.getElem?_eq_getElem (by simpa using h), Option.getD_some, Vector.getElem_toList]

end Machine

open Machine

/-- Settles O41: the start copies the image, which is canonical (`Memory.ofBytes_wf`), within 256 cells and read back
cell by cell (`Rm.read_start`). -/
theorem rmStartLoadsImage : Obligations.RmStartLoadsImage := fun _ image _ hs =>
  ⟨Rm.start image, step_startRm hs, rfl, rfl, rfl, rfl, rfl, Memory.ofBytes_wf image.toList 0, Rm.start_below image,
    fun _ h => Rm.read_start image h⟩

/-- Settles O40: the start's tape is the empty memory, which is canonical and reads 0 everywhere. -/
theorem tmStartEstablishesReset : Obligations.TmStartEstablishesReset := fun s load _ hs =>
  ⟨s.tm.start load, step_startTm hs, rfl, rfl, rfl, rfl, rfl, Memory.wf_nil, Memory.read_nil⟩

/-- Settles O42: the fields of the reset state, and its empty tape, which reads 0 everywhere. -/
theorem resetValues : Obligations.ResetValues :=
  ⟨rfl, rfl, rfl, rfl, Memory.read_nil, rfl, rfl, rfl, rfl, rfl, rfl, rfl, rfl, rfl⟩

/-- Settles O44: the view's test is `STATUS = RUNNING`, that of the statement its negation. -/
theorem hostSeesFinalStateOnlyAfterEnd : Obligations.HostSeesFinalStateOnlyAfterEnd := by
  intro s
  refine ⟨⟨rfl, rfl, ?_⟩, ⟨rfl, rfl, ?_⟩⟩
  · exact (ite_not _ _ _).symm
  · exact (ite_not _ _ _).symm

/-- Settles O30: a read takes the head of the queue, or the standing answer `fail` once it is empty; the list of write
answers is empty, so a write takes the standing one. -/
theorem referenceEnvironmentAnswers : Obligations.ReferenceEnvironmentAnswers := by
  intro queue w done env
  exact ⟨fun _ => rfl, rfl, fun _ => rfl⟩

end Sys2Proof
end

section
/-! PROOFS. The invariant of the machine (spec/10_state.md R10, R14, spec/43_tm_loop.md R123, spec/60_exceptions.md
R175): each update an instruction makes keeps it, so every step does, and no run from it stops. -/

namespace Sys2Proof

namespace Machine

/-! ### The updates of `TM` -/

variable {c : Config} {u : Tm}

theorem Tm.Inv.setStatus (h : u.Inv c) (v : Status) : (u.setStatus v).Inv c := h

/-- The advance of R91 goes at most to the end of the program, and away from every entry of the jump stack. -/
theorem Tm.Inv.advance (h : u.Inv c) (hpos : u.pos < u.prog.length) : u.advance.Inv c := by
  obtain ⟨-, hcur, hwf, hbelow, ⟨hfall, hlt, hopen⟩, hdepth⟩ := h
  exact ⟨hpos, hcur, hwf, hbelow, ⟨hfall, fun q hq => Nat.lt_succ_of_lt (hlt q hq), hopen⟩, hdepth⟩

theorem Tm.Inv.moveTo (h : u.Inv c) {d : Nat} (hd : d ≤ c.tapeLen) : (u.moveTo d).Inv c := by
  obtain ⟨hpos, -, hrest⟩ := h
  exact ⟨hpos, hd, hrest⟩

theorem Tm.Inv.setCell (h : u.Inv c) (hcur : u.cur < c.tapeLen) (v : Byte) : (u.setCell v).Inv c := by
  obtain ⟨hpos, hle, hwf, hbelow, hjs⟩ := h
  exact ⟨hpos, hle, Memory.write_wf hwf u.cur v, Memory.write_below hbelow hcur v, hjs⟩

/-- The position of a `[` goes on top of a stack that is not full: it is above every entry, and the advance leaves it
behind. -/
theorem Tm.Inv.push (h : u.Inv c) (hb : u.prog[u.pos]? = some c.opcodes.tm.loopOpen)
    (hroom : jsFull c.jsDepth u.js.length = false) : (u.setJs (u.pos :: u.js)).advance.Inv c := by
  obtain ⟨-, hcur, hwf, hbelow, ⟨hfall, hlt, hopen⟩, -⟩ := h
  obtain ⟨hpos, -⟩ := List.getElem?_eq_some_iff.mp hb
  refine ⟨hpos, hcur, hwf, hbelow, ⟨List.pairwise_cons.mpr ⟨hlt, hfall⟩, ?_, ?_⟩, ?_⟩
  · exact List.forall_mem_cons.mpr ⟨Nat.lt_succ_self u.pos, fun q hq => Nat.lt_succ_of_lt (hlt q hq)⟩
  · exact List.forall_mem_cons.mpr ⟨hb, hopen⟩
  · cases hd : c.jsDepth with
    | none => rfl
    | some d =>
      rw [hd] at hroom
      simpa [withinDepth, jsFull] using hroom

/-- What is left after a pop is a stack as before. -/
theorem Tm.Inv.pop (h : u.Inv c) {q : Nat} {rest : List Nat} (hj : u.js = q :: rest) : (u.setJs rest).Inv c := by
  obtain ⟨hpos, hcur, hwf, hbelow, ⟨hfall, hlt, hopen⟩, hdepth⟩ := h
  rw [hj] at hfall hlt hopen hdepth
  obtain ⟨-, hfall⟩ := List.pairwise_cons.mp hfall
  obtain ⟨-, hlt⟩ := List.forall_mem_cons.mp hlt
  obtain ⟨-, hopen⟩ := List.forall_mem_cons.mp hopen
  refine ⟨hpos, hcur, hwf, hbelow, ⟨hfall, hlt, hopen⟩, ?_⟩
  cases hd : c.jsDepth with
  | none => rfl
  | some d =>
    rw [hd] at hdepth
    have hle : rest.length + 1 ≤ d := by simpa [withinDepth] using hdepth
    exact decide_eq_true (Nat.le_of_succ_le hle)

/-- `POS` just behind the `[` on top of the stack is above every entry, and within the program. -/
theorem Tm.Inv.reenter (h : u.Inv c) {q : Nat} {rest : List Nat} (hj : u.js = q :: rest) :
    (u.jumpTo q).advance.Inv c := by
  obtain ⟨-, hcur, hwf, hbelow, ⟨hfall, -, hopen⟩, hdepth⟩ := h
  have hq : u.prog[q]? = some c.opcodes.tm.loopOpen := hopen q (by simp [hj])
  obtain ⟨hlen, -⟩ := List.getElem?_eq_some_iff.mp hq
  refine ⟨hlen, hcur, hwf, hbelow, ⟨hfall, fun p hp => ?_, hopen⟩, hdepth⟩
  rw [hj] at hfall
  obtain ⟨htop, -⟩ := List.pairwise_cons.mp hfall
  obtain rfl | hp := List.mem_cons.mp (hj ▸ hp)
  · exact Nat.lt_succ_self p
  · exact Nat.lt_succ_of_lt (htop p hp)

/-- A start meets the invariant, whatever the program. -/
theorem Tm.Inv.start (u : Tm) (load : Option (List Byte)) : (u.start load).Inv c :=
  ⟨Nat.zero_le _, Nat.zero_le _, Memory.wf_nil, Memory.below_nil _,
    ⟨.nil, List.forall_mem_nil _, List.forall_mem_nil _⟩, by cases hd : c.jsDepth <;> simp [withinDepth, Tm.start]⟩

/-! ### The instructions -/

variable {s t : State} {i : Instr}

/-- A guarded access keeps the invariant where its effect at a cell does. -/
theorem CellEffect.tm_inv {P : Prop} (h : CellEffect s t P) (hinv : s.tm.Inv s.cfg)
    (hP : s.tm.cur < s.cfg.tapeLen → P → t.tm.Inv s.cfg) : t.tm.Inv s.cfg := by
  obtain ⟨hc, h⟩ | ⟨-, rfl⟩ := h
  · exact hP hc h
  · exact hinv.setStatus _

/-- The instruction at `POS` keeps the invariant of `TM`. -/
theorem Effect.tm_inv {b : Byte} (hinv : s.tm.Inv s.cfg) (hb : s.tm.prog[s.tm.pos]? = some b)
    (hdec : decodeTm s.cfg.opcodes.tm b = i) (h : Effect i s t) : t.tm.Inv s.cfg := by
  obtain ⟨hpos, -⟩ := List.getElem?_eq_some_iff.mp hb
  obtain ⟨-, hcur, -⟩ := id hinv
  have hi : i.core = .tm := hdec ▸ decodeTm_core _ _
  cases i with
  | tmRight =>
    obtain ⟨d, hd, rfl⟩ | ⟨-, rfl⟩ := h
    · exact (hinv.moveTo (cursorRight_le hd)).advance hpos
    · exact hinv.setStatus _
  | tmLeft =>
    obtain rfl := h
    exact (hinv.moveTo (cursorLeft_le hcur)).advance hpos
  | tmInc | tmDec =>
    refine h.tm_inv hinv fun hc h => ?_
    obtain rfl := h
    exact (hinv.setCell hc _).advance hpos
  | tmIn =>
    refine h.tm_inv hinv fun hc h => ?_
    obtain ⟨-, rfl⟩ | ⟨v, p, -, rfl⟩ | ⟨p, -, rfl⟩ := h
    · exact hinv
    · exact (hinv.setCell hc v).advance hpos
    · exact hinv.setStatus _
  | tmOut =>
    refine h.tm_inv hinv fun hc h => ?_
    obtain ⟨-, rfl⟩ | ⟨p, -, rfl⟩ | ⟨p, -, rfl⟩ := h
    · exact hinv
    · exact hinv.advance hpos
    · exact hinv.setStatus _
  | tmOpen =>
    obtain ⟨-, rfl⟩ | ⟨hroom, rfl⟩ := h
    · exact hinv.setStatus _
    · exact hinv.push (decodeTm_open hdec ▸ hb) hroom
  | tmClose =>
    obtain ⟨-, rfl⟩ | ⟨q, rest, hj, h⟩ := h
    · exact hinv.setStatus _
    · refine h.tm_inv hinv fun hc h => ?_
      obtain ⟨-, rfl⟩ | ⟨-, rfl⟩ := h
      · exact hinv.reenter hj
      · exact (hinv.pop hj).advance hpos
  | tmNop =>
    obtain rfl := h
    exact hinv.advance hpos
  | _ => cases hi

/-- An instruction of `RM` keeps the invariant of `RM`: only the store changes the memory, at one of the 256 cells. -/
theorem exec_rm_inv (hinv : s.rm.Inv) (h : exec i s = .next t) : t.rm.Inv := by
  obtain ⟨hwf, hbelow, hok⟩ := hinv
  have hw := rmWrites_of_exec h
  by_cases hmem : t.rm.mem = s.rm.mem
  · exact ⟨hmem ▸ hwf, hmem ▸ hbelow, hw.status ▸ hok⟩
  · obtain rfl := hw.mem hmem
    obtain rfl := exec_next h
    exact ⟨Memory.write_wf hwf _ _, Memory.write_below hbelow s.rm.ar.isLt _, hok⟩

/-! ### The step -/

theorem step_tm_inv (hinv : s.tm.Inv s.cfg) (h : step s = .next t) : t.tm.Inv s.cfg := by
  cases step_tm h with
  | idle htm => rwa [htm]
  | ended _ _ htm => rw [htm]; exact hinv.setStatus _
  | ran l b _ hb hexec => exact Effect.tm_inv (s := s.setSched l) hinv hb rfl (exec_next hexec)
  | started load _ _ htm => rw [htm]; exact Tm.Inv.start s.tm load

theorem step_rm_inv (hinv : s.rm.Inv) (h : step s = .next t) : t.rm.Inv := by
  cases step_rm h with
  | idle hrm => rwa [hrm]
  | halted _ _ hrm =>
    obtain ⟨hwf, hbelow, -⟩ := hinv
    rw [hrm]
    exact ⟨hwf, hbelow, rfl⟩
  | ran l _ _ hexec => exact exec_rm_inv (s := s.setSched l) hinv hexec
  | started image _ _ hrm =>
    rw [hrm]
    exact ⟨Memory.ofBytes_wf image.toList 0, Rm.start_below image, rfl⟩

theorem step_keeps_inv (hinv : s.Inv) (h : step s = .next t) : t.Inv := by
  obtain ⟨hcfg, htm, hrm⟩ := hinv
  have hsame := step_cfg h
  refine ⟨?_, ?_, step_rm_inv hrm h⟩
  · rwa [hsame]
  · rw [hsame]
    exact step_tm_inv htm h

theorem tmPass_total (hcur : s.tm.cur ≤ s.cfg.tapeLen) : ∃ t, tmPass s = .next t := by
  by_cases hrun : s.tm.status = .running
  · cases hb : s.tm.prog[s.tm.pos]? with
    | none => exact ⟨_, tmPass_end hrun hb⟩
    | some b =>
      rw [tmPass_exec hrun hb]
      exact exec_tm_total (decodeTm_core _ _) fun _ => hcur
  · exact ⟨s, tmPass_stopped hrun⟩

theorem rmPass_total (s : State) : ∃ t, rmPass s = .next t := by
  by_cases hrun : s.rm.status = .running
  · by_cases hir : s.rm.ir = haltIr
    · exact ⟨_, rmPass_halt hrun hir⟩
    · rw [rmPass_exec hrun hir]
      exact exec_rm_total (decodeRm_core _ _) s
  · exact ⟨s, rmPass_stopped hrun⟩

theorem pass_total (c : CoreId) (hcur : s.tm.cur ≤ s.cfg.tapeLen) : ∃ t, pass c s = .next t := by
  cases c with
  | tm => exact tmPass_total hcur
  | rm => exact rmPass_total s

/-- With the cursor in its range a step answers a next state, whatever the event. -/
theorem step_total (hcur : s.tm.cur ≤ s.cfg.tapeLen) : ∃ t, step s = .next t := by
  cases hs : s.sched with
  | nil =>
    rw [step_of_sched_nil hs]
    exact pass_total s.active hcur
  | cons e l =>
    rw [step_of_sched_cons hs]
    cases e with
    | pass c => exact pass_total (s := s.setSched l) c hcur
    | startTm | startRm => exact ⟨_, rfl⟩

/-! ### The depth of the jump stack -/

/-- Distinct positions of one value in a list are no more than its occurrences. -/
theorem length_le_count_of_positions {α : Type} [DecidableEq α] {l : List Nat} {xs : List α} {b : α} (hl : l.Nodup)
    (h : ∀ q ∈ l, xs[q]? = some b) : l.length ≤ xs.count b := by
  have hsub : l ⊆ xs.idxsOf b := fun q hq => by
    obtain ⟨hlt, hb⟩ := List.getElem?_eq_some_iff.mp (h q hq)
    exact List.mem_idxsOf_iff_exists_getElem_pos.mpr ⟨hlt, beq_iff_eq.mpr hb⟩
  rw [← List.length_idxsOf (s := 0)]
  exact (hl.subperm hsub).length_le

/-- R123 makes the entries distinct positions of `[`, so R124 bounds the depth. -/
theorem Tm.JsOk.length_le {o : Byte} (h : u.JsOk o) : u.js.length ≤ u.prog.count o := by
  obtain ⟨hfall, -, hopen⟩ := h
  exact length_le_count_of_positions (hfall.imp Nat.ne_of_gt) hopen

/-- At a `[` there is one position of a `[` more than the entries: its own. -/
theorem Tm.JsOk.length_lt {o : Byte} (h : u.JsOk o) (hb : u.prog[u.pos]? = some o) : u.js.length < u.prog.count o := by
  obtain ⟨hfall, hlt, hopen⟩ := h
  have hdistinct : (u.pos :: u.js).Nodup :=
    List.nodup_cons.mpr ⟨fun hmem => Nat.lt_irrefl _ (hlt u.pos hmem), hfall.imp Nat.ne_of_gt⟩
  exact length_le_count_of_positions hdistinct (List.forall_mem_cons.mpr ⟨hb, hopen⟩)

/-- R124: a stack of at least as many entries as there are `[` in the program is never full at a `[`. -/
theorem step_status_ne_jumpStackOverflow (hinv : s.Inv) {d : Nat} (hd : s.cfg.jsDepth = some d)
    (hcount : s.tm.prog.count s.cfg.opcodes.tm.loopOpen ≤ d) (hrun : s.tm.status = .running) (h : step s = .next t) :
    t.tm.status ≠ .failed .jumpStackOverflow := by
  intro hfailed
  obtain ⟨-, ⟨-, -, -, -, hjs, -⟩, -⟩ := hinv
  cases step_tm h with
  | idle htm => simp [htm, hrun] at hfailed
  | ended _ _ htm => simp [htm] at hfailed
  | started _ _ _ htm => simp [htm, Tm.start] at hfailed
  | ran l b _ hb hexec =>
    obtain ⟨p, hi, hfull, -⟩ := (failed_iff_raises (s := s.setSched l) hrun hexec).mp hfailed
    obtain ⟨m, hm, hle⟩ := jsFull_iff.mp hfull
    obtain rfl : d = m := Option.some.inj (hd.symm.trans hm)
    have hlt := hjs.length_lt (decodeTm_open hi ▸ hb)
    rw [State.setSched_tm] at hle
    omega

end Machine

open Machine

/-- Settles O43: the default map has distinct bytes, the `TM` of the reset state is one just started, and the memory of
`RM` is empty. -/
theorem resetMeetsInvariant : Obligations.ResetMeetsInvariant :=
  ⟨⟨by decide, by decide⟩, Tm.Inv.start Tm.reset none, Memory.wf_nil, Memory.below_nil memSize, rfl⟩

/-- Settles O47: the parameters stay, and the invariant of each core is kept by every case of a step (`step_tm_inv`,
`step_rm_inv`). -/
theorem stepKeepsInvariant : Obligations.StepKeepsInvariant := fun _ _ => step_keeps_inv

/-- Settles O48, by induction on the number of steps: the cursor's range lets each step answer (`step_total`), and the
invariant goes on (`step_keeps_inv`). -/
theorem noRunStops : Obligations.NoRunStops := by
  intro s k
  induction k generalizing s with
  | zero => exact fun hinv => ⟨s, rfl, hinv⟩
  | succ k ih =>
    intro hinv
    obtain ⟨-, ⟨-, hcur, -⟩, -⟩ := id hinv
    obtain ⟨t, ht⟩ := step_total hcur
    rw [runFor_succ k ht]
    exact ih t (step_keeps_inv hinv ht)

/-- Settles O49: under R123 the entries are distinct positions of `[` (`Tm.JsOk.length_le`), and at a `[` that overflows
there would be one more (`step_status_ne_jumpStackOverflow`). -/
theorem jumpStackDepthBounded : Obligations.JumpStackDepthBounded := by
  intro s hinv
  obtain ⟨-, ⟨-, -, -, -, hjs, -⟩, -⟩ := id hinv
  exact ⟨hjs.length_le, fun _ _ => step_status_ne_jumpStackOverflow hinv⟩

end Sys2Proof
end

section
/-! PROOFS. Passes of the two cores commute (spec/00_scope.md R2, R190): a pass sees only what its core sees, so it
answers the same before and after a pass of the other core. -/

namespace Sys2Proof

namespace Machine

variable (w : State) {s t u : State}

/-- A pass of `TM` sees only its core, its port and the parameters, whatever its outcome. -/
theorem tmPass_withTmOf (s : State) : tmPass (w.withTmOf s) = mapNext w.withTmOf (tmPass s) := by
  by_cases hrun : s.tm.status = .running
  · cases hb : s.tm.prog[s.tm.pos]? with
    | none => rw [tmPass_end hrun hb, tmPass_end (s := w.withTmOf s) hrun hb]; rfl
    | some b =>
      rw [tmPass_exec hrun hb, tmPass_exec (s := w.withTmOf s) hrun hb]
      exact exec_withTmOf w (decodeTm_core _ b) s
  · rw [tmPass_stopped hrun, tmPass_stopped (s := w.withTmOf s) hrun]
    rfl

/-- A pass of `RM` sees only its core, its port and, of the parameters, the opcode map. -/
theorem rmPass_withRmOf (hcfg : w.cfg = s.cfg) : rmPass (w.withRmOf s) = mapNext w.withRmOf (rmPass s) := by
  by_cases hrun : s.rm.status = .running
  · by_cases hir : s.rm.ir = haltIr
    · rw [rmPass_halt hrun hir, rmPass_halt (s := w.withRmOf s) hrun hir]; rfl
    · rw [rmPass_exec hrun hir, rmPass_exec (s := w.withRmOf s) hrun hir, ← hcfg]
      exact exec_withRmOf w (decodeRm_core _ _) s
  · rw [rmPass_stopped hrun, rmPass_stopped (s := w.withRmOf s) hrun]
    rfl

theorem runFor_succ_fault {f : Fault} (k : Nat) (h : step s = .fault f) : runFor (k + 1) s = .fault f := by
  simp only [runFor, h]

theorem runFor_one (s : State) : runFor 1 s = step s := by
  cases h : step s with
  | next t => exact runFor_succ 0 h
  | fault f => exact runFor_succ_fault 0 h
  | refused r => simp only [runFor, h]

/-- A pass of `TM` never refuses. -/
theorem tmPass_outcome (s : State) : (∃ t, tmPass s = .next t) ∨ ∃ f, tmPass s = .fault f := by
  by_cases hrun : s.tm.status = .running
  · cases hb : s.tm.prog[s.tm.pos]? with
    | none => exact .inl ⟨_, tmPass_end hrun hb⟩
    | some b =>
      rw [tmPass_exec hrun hb]
      exact (exec_outcome _ s).imp_right fun ⟨hf, _⟩ => ⟨_, hf⟩
  · exact .inl ⟨s, tmPass_stopped hrun⟩

/-- `RM` first: its pass, then the pass of `TM` with the outcome it has by itself. -/
theorem runFor_rm_tm (hu : rmPass s = .next u) :
    runFor 2 (s.setSched (.pass .rm :: .pass .tm :: s.sched)) = mapNext (s.withRmOf u).withTmOf (tmPass s) := by
  have hfirst : step (s.setSched (.pass .rm :: .pass .tm :: s.sched)) =
      .next ((s.setSched (.pass .tm :: s.sched)).withRmOf u) := by
    have hpass := rmPass_withRmOf (s.setSched (.pass .tm :: s.sched)) (s := s) rfl
    rw [hu] at hpass
    exact hpass
  rw [runFor_succ 1 hfirst, runFor_one]
  exact tmPass_withTmOf (s.withRmOf u) s

/-- `TM` first: its pass, and where it answers a next state, the pass of `RM` with the outcome it has by itself. -/
theorem runFor_tm_rm (hu : rmPass s = .next u) :
    runFor 2 (s.setSched (.pass .tm :: .pass .rm :: s.sched)) = mapNext (s.withRmOf u).withTmOf (tmPass s) := by
  have hfirst : step (s.setSched (.pass .tm :: .pass .rm :: s.sched)) =
      mapNext (s.setSched (.pass .rm :: s.sched)).withTmOf (tmPass s) :=
    tmPass_withTmOf (s.setSched (.pass .rm :: s.sched)) s
  obtain ⟨t, ht⟩ | ⟨f, hf⟩ := tmPass_outcome s
  · rw [ht] at hfirst ⊢
    rw [runFor_succ 1 hfirst, runFor_one]
    obtain ⟨hcfg, -, -⟩ := tmPass_frame ht
    have hpass := rmPass_withRmOf (s.withTmOf t) (s := s) hcfg
    rw [hu] at hpass
    exact hpass
  · rw [hf] at hfirst ⊢
    exact runFor_succ_fault 1 hfirst

end Machine

open Machine

/-- Settles O56: in the state without the two events the pass of `RM` answers (`rmPass_total`), and in either order the
two passes answer that pass put together with the pass of `TM` (`runFor_tm_rm`, `runFor_rm_tm`). -/
theorem passesOfTheCoresCommute : Obligations.PassesOfTheCoresCommute := by
  intro s rest
  obtain ⟨u, hu⟩ := rmPass_total (s.setSched rest)
  exact (runFor_tm_rm hu).trans (runFor_rm_tm hu).symm

end Sys2Proof
end

section
/-! PROOFS. Runs of `RM` and `TM` (spec/44_rm_execution_loop.md R134, R135, spec/40_tm_execution_loop.md R93,
spec/20_memory.md R63): where `IR` goes, what the fetch after a store sees, and programs of no-ops. -/

namespace Sys2Proof

namespace Machine

variable {s t : State} {i : Instr}

/-- Where `IR` is after an instruction of `RM` whose port has answered. -/
theorem Effect.rm_ir (hi : i.core = .rm) (hread : s.rmPort.read ≠ none) (hwrite : s.rmPort.write s.rm.dr ≠ none)
    (h : Effect i s t) :
    t.rm.ir = if i = .rmJump then s.rm.ar + 1#8
      else if i = .rmSkipz ∧ s.rm.dr = 0#8 then s.rm.ir + 1#8 + 1#8 else s.rm.ir + 1#8 := by
  cases i with
  | rmLoad | rmStore | rmPoint | rmJump | rmSwitch | rmAdd | rmSub | rmNop => obtain rfl := h; simp
  | rmInput =>
    obtain ⟨hnone, -⟩ | ⟨a, p, -, rfl⟩ := h
    · exact absurd hnone hread
    · simp
  | rmOutput =>
    obtain ⟨hnone, -⟩ | ⟨a, p, -, rfl⟩ := h
    · exact absurd hnone hwrite
    · simp
  | rmSkipz => obtain ⟨hd, rfl⟩ | ⟨hd, rfl⟩ := h <;> simp [hd]
  | _ => cases hi

theorem add_one_eq_255_iff {x : Byte} : x + 1#8 = 255#8 ↔ x = 254#8 := by
  constructor <;> intro h <;> bv_omega

theorem add_one_add_one_eq_255_iff {x : Byte} : x + 1#8 + 1#8 = 255#8 ↔ x = 253#8 := by
  constructor <;> intro h <;> bv_omega

/-- A step of the active `RM` that is running and not at 255 is `exec` of the instruction at `IR`. -/
theorem step_rm_exec (hs : s.sched = []) (ha : s.active = .rm) (hrun : s.rm.status = .running)
    (hir : s.rm.ir ≠ haltIr) :
    step s = exec (decodeRm s.cfg.opcodes.rm (Memory.read s.rm.mem s.rm.ir.toNat)) s :=
  (step_of_active_rm hs ha).trans (rmPass_exec hrun hir)

/-- A step of the active `TM` that is running and not at the end is `exec` of the instruction at `POS`. -/
theorem step_tm_exec (hs : s.sched = []) (ha : s.active = .tm) (hrun : s.tm.status = .running) {b : Byte}
    (hb : s.tm.prog[s.tm.pos]? = some b) : step s = exec (decodeTm s.cfg.opcodes.tm b) s :=
  (step_of_active_tm hs ha).trans (tmPass_exec hrun hb)

/-- The byte at an address after `Mem[AR] <- v`, the addresses compared as bytes. -/
theorem Rm.read_setMemAtAr_toNat {r : Rm} (h : Memory.wf r.mem) (v a : Byte) :
    Memory.read (r.setMemAtAr v).mem a.toNat = if r.ar = a then v else Memory.read r.mem a.toNat := by
  rw [Rm.read_setMemAtAr h]
  simp only [BitVec.toNat_inj, eq_comm]

/-- From a position of a running `TM` with `n` bytes to go, all no-ops: a pass for each, and one for the test. -/
theorem runFor_tm_nops (n : Nat) (hs : s.sched = []) (ha : s.active = .tm) (hrun : s.tm.status = .running)
    (hnop : ∀ b ∈ s.tm.prog, b ∉ s.cfg.opcodes.tm.bytes) (hpos : s.tm.pos + n = s.tm.prog.length) :
    runFor (n + 1) s = .next (s.setTm ((s.tm.jumpTo s.tm.prog.length).setStatus .done)) := by
  induction n generalizing s with
  | zero =>
    have hb : s.tm.prog[s.tm.pos]? = none := List.getElem?_eq_none hpos.ge
    rw [runFor_one, step_of_active_tm hs ha, tmPass_end hrun hb, ← hpos]
    rfl
  | succ n ih =>
    have hlt : s.tm.pos < s.tm.prog.length := by omega
    have hstep : step s = .next (s.setTm s.tm.advance) := by
      rw [step_tm_exec hs ha hrun (List.getElem?_eq_getElem hlt), decodeTm_nop (hnop _ (List.getElem_mem hlt)),
        exec_tmNop]
    have hgo : s.tm.pos + 1 + n = s.tm.prog.length := by omega
    rw [runFor_succ _ hstep]
    exact ih (s := s.setTm s.tm.advance) hs ha hrun hnop hgo

/-- From an address of a running `RM` with `n` addresses to go to 255, all no-ops: a pass for each, and one for the
test. -/
theorem runFor_rm_nops (n : Nat) (hs : s.sched = []) (ha : s.active = .rm) (hrun : s.rm.status = .running)
    (hnop : ∀ a < 255, Memory.read s.rm.mem a ∉ s.cfg.opcodes.rm.bytes) (hir : s.rm.ir.toNat + n = 255) :
    runFor (n + 1) s = .next (s.setRm ((s.rm.setIr 255#8).setStatus .done)) := by
  induction n generalizing s with
  | zero =>
    have hhalt : s.rm.ir = 255#8 := BitVec.eq_of_toNat_eq hir
    rw [runFor_one, step_of_active_rm hs ha, rmPass_halt hrun hhalt, ← hhalt]
    rfl
  | succ n ih =>
    have hlt : s.rm.ir.toNat < 255 := by omega
    have hne : s.rm.ir ≠ haltIr := fun h => by simp [h, haltIr] at hlt
    have hstep : step s = .next (s.setRm s.rm.advance) := by
      rw [step_rm_exec hs ha hrun hne, decodeRm_nop (hnop _ hlt), exec_rmNop]
    have hgo : (s.rm.ir + 1#8).toNat + n = 255 := by bv_omega
    rw [runFor_succ _ hstep]
    exact ih (s := s.setRm s.rm.advance) hs ha hrun hnop hgo

end Machine

open Machine

/-- Settles O52: the pass is that of the decoded instruction, `Effect.rm_ir` says where it leaves `IR`, and no
instruction writes `STATUS`. -/
theorem rmWaysToReach255 : Obligations.RmWaysToReach255 := by
  intro s t i hrun hir hdec hread hwrite h
  rw [rmPass_exec hrun hir, hdec] at h
  have hi : i.core = .rm := hdec ▸ decodeRm_core _ _
  have hto := (exec_next h).rm_ir hi hread hwrite
  have hstatus : t.rm.status = .running := (rmWrites_of_exec h).status.trans hrun
  refine ⟨?_, ?_, ?_⟩
  · rw [hto]
    by_cases hjump : i = .rmJump
    · simp [hjump, add_one_eq_255_iff]
    · by_cases hskip : i = .rmSkipz ∧ s.rm.dr = 0#8
      · simp [hskip, add_one_add_one_eq_255_iff]
      · simp only [hjump, hskip, if_false, add_one_eq_255_iff]
        tauto
  · rintro rfl hd h254
    refine ⟨?_, hstatus⟩
    rw [hto]
    simp [hd, h254]
  · rintro rfl h255
    obtain rfl := exec_next h
    exact ⟨by simp [h255], rfl, hstatus⟩

/-- Settles O53: the store completes with `IR` one on and below 255, and the byte fetched there is read through the
write at `AR` (`Rm.read_setMemAtAr_toNat`). -/
theorem nextFetchSeesStore : Obligations.NextFetchSeesStore := by
  intro s hs ha hrun hwf hir255 hir254 hdec
  have hread := Rm.read_setMemAtAr_toNat hwf s.rm.dr
  have hnext : s.rm.ir + 1#8 ≠ haltIr := mt add_one_eq_255_iff.mp hir254
  refine ⟨s.setRm (s.rm.setMemAtAr s.rm.dr).advance, ?_, ?_, fun hself => ⟨?_, rfl⟩⟩
  · rw [step_rm_exec hs ha hrun hir255, hdec, exec_rmStore]
  · rw [← hread]
    exact step_rm_exec (s := s.setRm (s.rm.setMemAtAr s.rm.dr).advance) hs ha hrun hnext
  · exact (hread s.rm.ir).trans (if_pos hself)

/-- Settles O57: the run of `runFor_tm_nops` over the bytes that are left. -/
theorem tmNoopProgramEnds : Obligations.TmNoopProgramEnds := fun _ hs ha hrun hpos hnop =>
  runFor_tm_nops _ hs ha hrun hnop (Nat.add_sub_of_le hpos)

/-- Settles O58: the run of `runFor_rm_nops` over the addresses that are left before 255. -/
theorem rmNoopImageHalts : Obligations.RmNoopImageHalts := fun s hs ha hrun hnop =>
  runFor_rm_nops _ hs ha hrun hnop (Nat.add_sub_of_le (Nat.le_of_lt_succ s.rm.ir.isLt))

end Sys2Proof
end
